-- ==== Sys2Proof/Word.lean ====
section
/-! DEFINITION. The fixed widths of the CORE: what `00_scope.md` R7 to R9 call a byte, a word, an
address, a program counter and a register number. All values are unsigned (R9). -/

namespace Sys2Proof

/-- An 8-bit unsigned value: a register, a timer, a memory cell (R7 `XLEN`). -/
abbrev Byte := BitVec 8

/-- An instruction word (R70). -/
abbrev Word := BitVec 16

/-- A 12-bit address: the index register, a stack slot, an `nnn` operand (R7 `ADDR_W`). -/
abbrev Addr := BitVec 12

/-- The 13-bit program counter (R22); it can hold the out-of-range values a fetch then refuses. -/
abbrev PcVal := BitVec 13

/-- A 4-bit field of an instruction word, or a logical key (R13, R200). -/
abbrev Nibble := BitVec 4

/-- A register number: V0 to VF (R20). -/
abbrev VReg := Fin 16

/-- The number of VF, the flag register (R21). -/
abbrev VF : VReg := 15

end Sys2Proof
end

