-- ==== Sys2Proof/Syntax.lean ====
section
/-! DEFINITION. The instructions: one constructor per row of `spec/opcode_table.json`, in the order of
`30_encoding.md` R80. Operands are already decoded (R71, R73). The ignored fields of R78 are no
operands. -/

namespace Sys2Proof

/-- The 34 instructions. -/
inductive Instr where
  /-- `clear-display` (R181). -/
  | clearDisplay
  /-- `return` (R108). -/
  | ret
  /-- `jump nnn` (R109). -/
  | jump (nnn : Addr)
  /-- `call nnn` (R110). -/
  | call (nnn : Addr)
  /-- `skip-eq Vx,nn` (R112). -/
  | skipEqImm (x : VReg) (nn : Byte)
  /-- `skip-ne Vx,nn` (R113). -/
  | skipNeImm (x : VReg) (nn : Byte)
  /-- `skip-eq Vx,Vy` (R114). -/
  | skipEqReg (x y : VReg)
  /-- `load Vx,nn` (R131). -/
  | loadImm (x : VReg) (nn : Byte)
  /-- `add Vx,nn` (R132). -/
  | addImm (x : VReg) (nn : Byte)
  /-- `load Vx,Vy` (R133). -/
  | loadReg (x y : VReg)
  /-- `or Vx,Vy` (R134). -/
  | orReg (x y : VReg)
  /-- `and Vx,Vy` (R135). -/
  | andReg (x y : VReg)
  /-- `xor Vx,Vy` (R136). -/
  | xorReg (x y : VReg)
  /-- `add Vx,Vy` (R137). -/
  | addReg (x y : VReg)
  /-- `sub Vx,Vy` (R138). -/
  | subReg (x y : VReg)
  /-- `shr Vx` (R139). -/
  | shr (x : VReg)
  /-- `subn Vx,Vy` (R140). -/
  | subnReg (x y : VReg)
  /-- `shl Vx` (R141). -/
  | shl (x : VReg)
  /-- `skip-ne Vx,Vy` (R115). -/
  | skipNeReg (x y : VReg)
  /-- `load I,nnn` (R160). -/
  | loadI (nnn : Addr)
  /-- `jump V0,nnn` (R118). -/
  | jumpV0 (nnn : Addr)
  /-- `random Vx,nn` (R146). -/
  | random (x : VReg) (nn : Byte)
  /-- `draw Vx,Vy,n` (R184); `n` is the row count. -/
  | draw (x y : VReg) (n : Nat)
  /-- `skip-key-pressed Vx` (R202). -/
  | skipKeyPressed (x : VReg)
  /-- `skip-key-not-pressed Vx` (R203). -/
  | skipKeyNotPressed (x : VReg)
  /-- `load Vx,DT` (R206). -/
  | loadFromDT (x : VReg)
  /-- `load Vx,K`, the blocking key wait (R204). -/
  | waitKey (x : VReg)
  /-- `load DT,Vx` (R208). -/
  | loadDT (x : VReg)
  /-- `load ST,Vx` (R209). -/
  | loadST (x : VReg)
  /-- `add I,Vx` (R162). -/
  | addI (x : VReg)
  /-- `load I,font(Vx)` (R164). -/
  | loadFont (x : VReg)
  /-- `store-bcd Vx` (R166). -/
  | storeBcd (x : VReg)
  /-- `store-regs Vx` (R168). -/
  | storeRegs (x : VReg)
  /-- `read-regs Vx` (R170). -/
  | readRegs (x : VReg)
  deriving DecidableEq, Repr

end Sys2Proof
end

