-- ==== Sys2Proof/WellFormed.lean ====
section
/-! DEFINITION. Which instruction terms an encoding exists for. Register numbers, `nn` and `nnn` are in
range by their types; the row count of `draw` is a number and must fit its 4-bit field
(`30_encoding.md` R73, R82). -/

namespace Sys2Proof

/-- The term stands for some instruction word. -/
def Instr.wellFormed : Instr → Bool
  | .draw _ _ n => decide (n < 16)
  | .clearDisplay | .ret | .jump _ | .call _ | .skipEqImm _ _ | .skipNeImm _ _ | .skipEqReg _ _
  | .loadImm _ _ | .addImm _ _ | .loadReg _ _ | .orReg _ _ | .andReg _ _ | .xorReg _ _
  | .addReg _ _ | .subReg _ _ | .shr _ | .subnReg _ _ | .shl _ | .skipNeReg _ _ | .loadI _
  | .jumpV0 _ | .random _ _ | .skipKeyPressed _ | .skipKeyNotPressed _ | .loadFromDT _
  | .waitKey _ | .loadDT _ | .loadST _ | .addI _ | .loadFont _ | .storeBcd _ | .storeRegs _
  | .readRegs _ => true

end Sys2Proof
end

