-- ==== Sys2Proof/Decode.lean ====
section
/-! DEFINITION. The decoder of `30_encoding.md` (R70 to R79), total on any word and on any bytes, and
after it the encoder written from the opcode map R80. -/

namespace Sys2Proof

/-! ### Fields (R71, R12) -/

/-- A 4-bit register field as a register number. -/
def regOf (b : Nibble) : VReg := ⟨b.toNat, b.isLt⟩

/-- `family = word[15:12]`. -/
def fieldFamily (w : Word) : Nibble := w.extractLsb' 12 4

/-- `x = word[11:8]`. -/
def fieldX (w : Word) : VReg := regOf (w.extractLsb' 8 4)

/-- `y = word[7:4]`. -/
def fieldY (w : Word) : VReg := regOf (w.extractLsb' 4 4)

/-- `n = word[3:0]`. -/
def fieldN (w : Word) : Nibble := w.extractLsb' 0 4

/-- `nn = word[7:0]`. -/
def fieldNN (w : Word) : Byte := w.extractLsb' 0 8

/-- `nnn = word[11:0]`. -/
def fieldNNN (w : Word) : Addr := w.extractLsb' 0 12

/-! ### The decoder (R75 to R79) -/

/-- Family 0x8, dispatched on `n`; `shr` and `shl` ignore `y` (R77, R78). -/
def decodeAlu (x y : VReg) (n : Nibble) : Option Instr :=
  if n = 0x0 then some (.loadReg x y)
  else if n = 0x1 then some (.orReg x y)
  else if n = 0x2 then some (.andReg x y)
  else if n = 0x3 then some (.xorReg x y)
  else if n = 0x4 then some (.addReg x y)
  else if n = 0x5 then some (.subReg x y)
  else if n = 0x6 then some (.shr x)
  else if n = 0x7 then some (.subnReg x y)
  else if n = 0xE then some (.shl x)
  else none

/-- Family 0xE, dispatched on `nn` (R77). -/
def decodeKey (x : VReg) (nn : Byte) : Option Instr :=
  if nn = 0x9E then some (.skipKeyPressed x)
  else if nn = 0xA1 then some (.skipKeyNotPressed x)
  else none

/-- Family 0xF, dispatched on `nn` (R77). -/
def decodeMisc (x : VReg) (nn : Byte) : Option Instr :=
  if nn = 0x07 then some (.loadFromDT x)
  else if nn = 0x0A then some (.waitKey x)
  else if nn = 0x15 then some (.loadDT x)
  else if nn = 0x18 then some (.loadST x)
  else if nn = 0x1E then some (.addI x)
  else if nn = 0x29 then some (.loadFont x)
  else if nn = 0x33 then some (.storeBcd x)
  else if nn = 0x55 then some (.storeRegs x)
  else if nn = 0x65 then some (.readRegs x)
  else none

/-- Family 0x0: only the two exact words decode (R75, R77). -/
def decodeFixed (w : Word) : Option Instr :=
  if w = 0x00E0 then some .clearDisplay
  else if w = 0x00EE then some .ret
  else none

/-- One word: the instruction of R80 it stands for, or `none`, the verdict "unknown" (R74). -/
def decodeWord (w : Word) : Option Instr :=
  let f := fieldFamily w
  if f = 0x0 then decodeFixed w
  else if f = 0x1 then some (.jump (fieldNNN w))
  else if f = 0x2 then some (.call (fieldNNN w))
  else if f = 0x3 then some (.skipEqImm (fieldX w) (fieldNN w))
  else if f = 0x4 then some (.skipNeImm (fieldX w) (fieldNN w))
  else if f = 0x5 then some (.skipEqReg (fieldX w) (fieldY w))
  else if f = 0x6 then some (.loadImm (fieldX w) (fieldNN w))
  else if f = 0x7 then some (.addImm (fieldX w) (fieldNN w))
  else if f = 0x8 then decodeAlu (fieldX w) (fieldY w) (fieldN w)
  else if f = 0x9 then some (.skipNeReg (fieldX w) (fieldY w))
  else if f = 0xA then some (.loadI (fieldNNN w))
  else if f = 0xB then some (.jumpV0 (fieldNNN w))
  else if f = 0xC then some (.random (fieldX w) (fieldNN w))
  else if f = 0xD then some (.draw (fieldX w) (fieldY w) (fieldN w).toNat)
  else if f = 0xE then decodeKey (fieldX w) (fieldNN w)
  else decodeMisc (fieldX w) (fieldNN w)

/-- Why bytes hold no instruction. -/
inductive DecodeReject where
  /-- Fewer than the two bytes every instruction takes (R70). -/
  | truncated
  /-- The word matches no row of R80 (R79). -/
  | unknownInstruction (w : Word)
  deriving DecidableEq, Repr

/-- The word of two consecutive bytes, big-endian: the byte at the lower address is the high byte
(R53, R70). -/
def wordOfBytes (hi lo : Byte) : Word := hi ++ lo

/-- Decoding a byte sequence: the instruction and the bytes after it, or the rejection by name. Every
instruction takes exactly two bytes (R70). -/
def decode : List Byte → Except DecodeReject (Instr × List Byte)
  | hi :: lo :: rest =>
    match decodeWord (wordOfBytes hi lo) with
    | some i => .ok (i, rest)
    | none => .error (.unknownInstruction (wordOfBytes hi lo))
  | [_] | [] => .error .truncated

/-- The two bytes of a word as memory stores them, the high byte first (R53). -/
def bytesOfWord (w : Word) : List Byte := [w.extractLsb' 8 8, w.extractLsb' 0 8]

/-- The instruction the decoder reads from an instruction whose bits, numbered as
`spec/opcode_table.json` numbers them, are `w`; all bits above `nbits` are 0. An instruction is one
16-bit word, so bits 15..0 are all of it. -/
def decodeTableWord (nbits w : Nat) : Option Instr :=
  match decode (bytesOfWord (BitVec.ofNat 16 (w % 2 ^ nbits))) with
  | .ok (i, _) => some i
  | .error _ => none

/-! ### The encoder (R72, R80) -/

/-- A register number as its 4-bit field. -/
def regBits (x : VReg) : Nibble := BitVec.ofNat 4 x.val

/-- Format `NNN`. -/
def wordNNN (f : Nibble) (nnn : Addr) : Word := f ++ nnn

/-- Formats `XNN` and `XSUB`: the low byte is an immediate or a sub-selector. -/
def wordXNN (f : Nibble) (x : VReg) (nn : Byte) : Word := f ++ (regBits x ++ nn : BitVec 12)

/-- Formats `XY` and `XYN`: the low nibble is a sub-selector or a row count. -/
def wordXYN (f : Nibble) (x y : VReg) (n : Nibble) : Word :=
  f ++ (regBits x ++ (regBits y ++ n : BitVec 8) : BitVec 12)

/-- The word of a well-formed instruction. An ignored field is written as 0 (R82). -/
def encode : Instr → Word
  | .clearDisplay => 0x00E0
  | .ret => 0x00EE
  | .jump nnn => wordNNN 0x1 nnn
  | .call nnn => wordNNN 0x2 nnn
  | .skipEqImm x nn => wordXNN 0x3 x nn
  | .skipNeImm x nn => wordXNN 0x4 x nn
  | .skipEqReg x y => wordXYN 0x5 x y 0x0
  | .loadImm x nn => wordXNN 0x6 x nn
  | .addImm x nn => wordXNN 0x7 x nn
  | .loadReg x y => wordXYN 0x8 x y 0x0
  | .orReg x y => wordXYN 0x8 x y 0x1
  | .andReg x y => wordXYN 0x8 x y 0x2
  | .xorReg x y => wordXYN 0x8 x y 0x3
  | .addReg x y => wordXYN 0x8 x y 0x4
  | .subReg x y => wordXYN 0x8 x y 0x5
  | .shr x => wordXYN 0x8 x 0 0x6
  | .subnReg x y => wordXYN 0x8 x y 0x7
  | .shl x => wordXYN 0x8 x 0 0xE
  | .skipNeReg x y => wordXYN 0x9 x y 0x0
  | .loadI nnn => wordNNN 0xA nnn
  | .jumpV0 nnn => wordNNN 0xB nnn
  | .random x nn => wordXNN 0xC x nn
  | .draw x y n => wordXYN 0xD x y (BitVec.ofNat 4 n)
  | .skipKeyPressed x => wordXNN 0xE x 0x9E
  | .skipKeyNotPressed x => wordXNN 0xE x 0xA1
  | .loadFromDT x => wordXNN 0xF x 0x07
  | .waitKey x => wordXNN 0xF x 0x0A
  | .loadDT x => wordXNN 0xF x 0x15
  | .loadST x => wordXNN 0xF x 0x18
  | .addI x => wordXNN 0xF x 0x1E
  | .loadFont x => wordXNN 0xF x 0x29
  | .storeBcd x => wordXNN 0xF x 0x33
  | .storeRegs x => wordXNN 0xF x 0x55
  | .readRegs x => wordXNN 0xF x 0x65

/-- The bytes of a well-formed instruction, as memory stores them. -/
def encodeBytes (i : Instr) : List Byte := bytesOfWord (encode i)

/-! ### The opcode map as masks (R80, `spec/opcode_table.json`) -/

/-- The fixed bits of the instruction's row: its `match` and its `mask`. -/
def Instr.row : Instr → Word × Word
  | .clearDisplay => (0x00E0, 0xFFFF)
  | .ret => (0x00EE, 0xFFFF)
  | .jump _ => (0x1000, 0xF000)
  | .call _ => (0x2000, 0xF000)
  | .skipEqImm _ _ => (0x3000, 0xF000)
  | .skipNeImm _ _ => (0x4000, 0xF000)
  | .skipEqReg _ _ => (0x5000, 0xF000)
  | .loadImm _ _ => (0x6000, 0xF000)
  | .addImm _ _ => (0x7000, 0xF000)
  | .loadReg _ _ => (0x8000, 0xF00F)
  | .orReg _ _ => (0x8001, 0xF00F)
  | .andReg _ _ => (0x8002, 0xF00F)
  | .xorReg _ _ => (0x8003, 0xF00F)
  | .addReg _ _ => (0x8004, 0xF00F)
  | .subReg _ _ => (0x8005, 0xF00F)
  | .shr _ => (0x8006, 0xF00F)
  | .subnReg _ _ => (0x8007, 0xF00F)
  | .shl _ => (0x800E, 0xF00F)
  | .skipNeReg _ _ => (0x9000, 0xF000)
  | .loadI _ => (0xA000, 0xF000)
  | .jumpV0 _ => (0xB000, 0xF000)
  | .random _ _ => (0xC000, 0xF000)
  | .draw _ _ _ => (0xD000, 0xF000)
  | .skipKeyPressed _ => (0xE09E, 0xF0FF)
  | .skipKeyNotPressed _ => (0xE0A1, 0xF0FF)
  | .loadFromDT _ => (0xF007, 0xF0FF)
  | .waitKey _ => (0xF00A, 0xF0FF)
  | .loadDT _ => (0xF015, 0xF0FF)
  | .loadST _ => (0xF018, 0xF0FF)
  | .addI _ => (0xF01E, 0xF0FF)
  | .loadFont _ => (0xF029, 0xF0FF)
  | .storeBcd _ => (0xF033, 0xF0FF)
  | .storeRegs _ => (0xF055, 0xF0FF)
  | .readRegs _ => (0xF065, 0xF0FF)

/-- The bits of a word the decoder ignores for the instruction: `n` of the register skips, `y` of the
shifts, nothing else (R78). -/
def Instr.ignoredBits : Instr → Word
  | .skipEqReg _ _ | .skipNeReg _ _ => 0x000F
  | .shr _ | .shl _ => 0x00F0
  | .clearDisplay | .ret | .jump _ | .call _ | .skipEqImm _ _ | .skipNeImm _ _
  | .loadImm _ _ | .addImm _ _ | .loadReg _ _ | .orReg _ _ | .andReg _ _ | .xorReg _ _
  | .addReg _ _ | .subReg _ _ | .subnReg _ _ | .loadI _
  | .jumpV0 _ | .random _ _ | .draw _ _ _ | .skipKeyPressed _ | .skipKeyNotPressed _
  | .loadFromDT _ | .waitKey _ | .loadDT _ | .loadST _ | .addI _ | .loadFont _ | .storeBcd _
  | .storeRegs _ | .readRegs _ => 0x0000

/-- The 34 rows of the map, `(match, mask)`, in the table's order. -/
def opcodeRows : List (Word × Word) :=
  [(0x00E0, 0xFFFF), (0x00EE, 0xFFFF), (0x1000, 0xF000), (0x2000, 0xF000), (0x3000, 0xF000),
   (0x4000, 0xF000), (0x5000, 0xF000), (0x6000, 0xF000), (0x7000, 0xF000)] ++
  [(0x8000, 0xF00F), (0x8001, 0xF00F), (0x8002, 0xF00F), (0x8003, 0xF00F), (0x8004, 0xF00F),
   (0x8005, 0xF00F), (0x8006, 0xF00F), (0x8007, 0xF00F), (0x800E, 0xF00F)] ++
  [(0x9000, 0xF000), (0xA000, 0xF000), (0xB000, 0xF000), (0xC000, 0xF000), (0xD000, 0xF000),
   (0xE09E, 0xF0FF), (0xE0A1, 0xF0FF)] ++
  [(0xF007, 0xF0FF), (0xF00A, 0xF0FF), (0xF015, 0xF0FF), (0xF018, 0xF0FF), (0xF01E, 0xF0FF),
   (0xF029, 0xF0FF), (0xF033, 0xF0FF), (0xF055, 0xF0FF), (0xF065, 0xF0FF)]

/-- The word carries the row's fixed bits. -/
def rowMatches (w : Word) (row : Word × Word) : Bool := w &&& row.2 == row.1

end Sys2Proof
end

