-- ==== Sys2Proof/Config.lean ====
section
/-! DEFINITION. The implementation parameters of `00_scope.md` R7, and the free values that stand for
the inputs no one has scheduled (`93_implementation_defined.md` U3, U4, U7). The two OPEN parameters
whose default the spec names are given their default where a repair can change it: `font` in
Machine/Ops.lean, `vfAlias` in Machine/Flags.lean. -/

namespace Sys2Proof.Config

/-- `MEM_SIZE`: the 4096 addressable bytes 0x000..0xFFF (R7, R50). -/
abbrev memSize : Nat := 4096

/-- `PROG_BASE`: the load address of a program and the reset PC (R7, R260). -/
abbrev progBase : Nat := 0x200

/-- `MAX_PROG_LEN`: a longer program is `LOAD_FAILED` (R7, R261). -/
abbrev maxProgLen : Nat := 3584

/-- `FONT_STRIDE`: the bytes of one glyph (R7, R165). -/
abbrev fontStride : Nat := 5

/-- The 80 glyph bytes occupy 0x000..0x04F (R7, R56). -/
abbrev fontLen : Nat := 80

/-- `SP_MAX`: the deepest stack index (R7, R26). -/
abbrev spMax : Nat := 15

/-- `FB_W` (R7, R29). -/
abbrev fbWidth : Nat := 64

/-- `FB_H` (R7, R29). -/
abbrev fbHeight : Nat := 32

/-- Units of wall-clock time in one second. The model counts time in nanoseconds since reset
completed. DESIGN CHOICE (log 5): the spec names no unit. -/
abbrev timeUnitsPerSecond : Nat := 1000000000

/-- `TIMER_PERIOD` is one second divided by this number (R7, R210). -/
abbrev timerHz : Nat := 60

/-- The parameter `VF_ALIAS` (R142, U2): which write is VF's final value when a flag-setting ALU
instruction has x = F. -/
inductive VfAlias where
  /-- The result write, listed last, wins: the spec's default. -/
  | resultWins
  /-- The alternative. -/
  | flagWins
  deriving DecidableEq, Repr

/-- The default of the OPEN parameter `FONT`: the classic font, one glyph a line (R165). -/
def classicFont : List Byte :=
  [0xF0, 0x90, 0x90, 0x90, 0xF0] ++   -- 0
  [0x20, 0x60, 0x20, 0x20, 0x70] ++   -- 1
  [0xF0, 0x10, 0xF0, 0x80, 0xF0] ++   -- 2
  [0xF0, 0x10, 0xF0, 0x10, 0xF0] ++   -- 3
  [0x90, 0x90, 0xF0, 0x10, 0x10] ++   -- 4
  [0xF0, 0x80, 0xF0, 0x10, 0xF0] ++   -- 5
  [0xF0, 0x80, 0xF0, 0x90, 0xF0] ++   -- 6
  [0xF0, 0x10, 0x20, 0x40, 0x40] ++   -- 7
  [0xF0, 0x90, 0xF0, 0x90, 0xF0] ++   -- 8
  [0xF0, 0x90, 0xF0, 0x10, 0xF0] ++   -- 9
  [0xF0, 0x90, 0xF0, 0x90, 0x90] ++   -- A
  [0xE0, 0x90, 0xE0, 0x90, 0xE0] ++   -- B
  [0xF0, 0x80, 0x80, 0x80, 0xF0] ++   -- C
  [0xE0, 0x90, 0x90, 0x90, 0xE0] ++   -- D
  [0xF0, 0x80, 0xF0, 0x80, 0xF0] ++   -- E
  [0xF0, 0x80, 0xF0, 0x80, 0x80]      -- F

/-- `CYCLE_RATE` (R215): OPEN, and read by no rule of the spec, so by no definition of the model. -/
opaque cycleRate : Nat

/-! Free values (log 2). Each stands for one port of a cycle for which the state schedules no input,
applied to the state's cycle counter; nothing constrains them. -/

/-- The key edge of an unscheduled cycle (R200, U7). -/
opaque freeKeyEdge : Nat → Option Nibble

/-- The timer-due verdict of an unscheduled cycle (R210, U4). -/
opaque freeTick : Nat → Bool

/-- The random byte of an unscheduled cycle (R146, U3). -/
opaque freeRand : Nat → Byte

/-- The wall-clock reading of an unscheduled cycle (R210). -/
opaque freeNow : Nat → Nat

end Sys2Proof.Config
end

