-- ==== Sys2Proof/Machine/State.lean ====
section
/-! DEFINITION. The complete state of the CORE (`10_state.md` R37), the reasons a step can stop, and the
state after reset (R40, R260). Plain data throughout. The last three fields of `State` are the model's
own: the render port and the cycle's inputs (`60_exceptions.md` R245). -/

namespace Sys2Proof.Machine

/-- The mode register (R30); `number` is its value at the port (R245). -/
inductive Mode where
  /-- The next cycle fetches an instruction. -/
  | run
  /-- `load Vx,K` is waiting for a key edge; nothing is fetched. -/
  | awaitKey
  /-- The quit signal stopped the CORE. -/
  | halted
  /-- A fatal condition stopped the CORE. -/
  | faulted
  deriving DecidableEq, Repr

/-- The value of the `mode` port (R245). -/
def Mode.number : Mode → BitVec 2
  | .run => 0
  | .awaitKey => 1
  | .halted => 2
  | .faulted => 3

/-- The fault codes (R231). -/
inductive FaultCode where
  | fetchOutOfRange
  | unknownInstruction
  | stackOverflow
  | stackUnderflow
  | memOutOfRange
  | indexOutOfRange
  deriving DecidableEq, Repr

/-- The number of a fault code, the value of the `fault_code` port (R231, R245). -/
def FaultCode.number : FaultCode → BitVec 3
  | .fetchOutOfRange => 1
  | .unknownInstruction => 2
  | .stackOverflow => 3
  | .stackUnderflow => 4
  | .memOutOfRange => 5
  | .indexOutOfRange => 6

/-- The fault record (R33, R232): `word` is absent when none was fetched, `info` is the offending
address or value where the fault has one. -/
structure FaultRecord where
  code : FaultCode
  pc   : PcVal
  word : Option Word
  info : Option PcVal
  deriving DecidableEq, Repr

/-- The inputs of one cycle (R36, R245): the ports `quit`, `key_edge`, `tick` and `rand`, and `now`,
the wall-clock reading a tick stores in `last_decay` (R210; log 5). -/
structure CycleInput where
  quit    : Bool
  keyEdge : Option Nibble
  tick    : Bool
  rand    : Byte
  now     : Nat
  deriving DecidableEq, Repr

/-- The 64-column by 32-row grid of pixels, row-major; `true` is lit (R29). -/
abbrev Framebuffer := Vector (Vector Bool 64) 32

/-- MemorySpace as the cells that differ from what an unlisted address reads as
(`Memory.unlisted`, `Memory.wf` in Machine/Ops.lean). -/
abbrev Memory := List Host.Cell

/-- The state of the CORE. -/
structure State where
  /-- V0 to VF (R20, R21). -/
  v           : Vector Byte 16
  /-- The index register I (R24). -/
  i           : Addr
  /-- The program counter (R22). -/
  pc          : PcVal
  /-- The stack pointer; 0 is empty (R26). -/
  sp          : BitVec 4
  /-- The 16 return-address slots (R25). -/
  stack       : Vector Addr 16
  /-- The delay timer DT (R27). -/
  dt          : Byte
  /-- The sound timer ST (R28). -/
  st          : Byte
  /-- The framebuffer FB (R29). -/
  fb          : Framebuffer
  /-- The mode register (R30). -/
  mode        : Mode
  /-- The destination of a key wait (R30). -/
  awaitX      : VReg
  /-- The tone flag (R31). -/
  toneActive  : Bool
  /-- The wall-clock time of the last decay (R32). -/
  lastDecay   : Nat
  /-- The fault record; empty until a fault (R33). -/
  faultRecord : Option FaultRecord
  /-- The 4096 bytes of MemorySpace (R50). -/
  mem         : Memory
  /-- The `fb_update` port at the end of the latest cycle (R180, R245). -/
  fbUpdate    : Bool
  /-- The inputs the host will present in the coming cycles, the next cycle's first (log 1). -/
  inputs      : List CycleInput
  /-- How many cycles have run; the argument of the free values for a cycle with no scheduled input
  (log 2). No instruction reads it. -/
  cycle       : Nat
  deriving DecidableEq, Repr

/-- The reasons a step stops the machine outside the spec. There is NONE: the spec gives every fatal
condition an entry (R232) and a terminal mode (R263), which `State` holds, so every step answers a next
state. Raised by no definition of the model; nothing safe or unsafe hangs on it (log 3). -/
inductive Fault where
  deriving DecidableEq, Repr

/-- The reasons the model has no meaning for an instruction. -/
inductive Refusal where
  /-- Raised by an arm of `exec` that has no meaning yet (no arm is left in that state). Safe: the model
  stops where the hardware goes on. -/
  | notModelled (mnemonic : String)
  deriving DecidableEq, Repr

/-- The outcome of creating the machine (R261). `loadFailed` is LOAD_FAILED: no state is created and no
cycle runs; it is not a fault of the CORE (R231). -/
inductive BootOutcome where
  | loadFailed
  | ready (s : State)
  deriving DecidableEq, Repr

/-- A framebuffer with every pixel off. -/
def Framebuffer.clear : Framebuffer := Vector.replicate 32 (Vector.replicate 64 false)

/-- The machine right after reset (R40, R260, R261) with the default `FONT` and a program of length 0:
memory lists nothing, so it reads as the glyphs and zeros of R56. A program is loaded by `State.boot`
(Machine/Boot.lean). Times count from the completion of reset, so `last_decay` is 0 (log 5). -/
def State.reset : State where
  v           := Vector.replicate 16 0
  i           := 0
  pc          := 0x200
  sp          := 0
  stack       := Vector.replicate 16 0
  dt          := 0
  st          := 0
  fb          := Framebuffer.clear
  mode        := .run
  awaitX      := 0
  toneActive  := false
  lastDecay   := 0
  faultRecord := none
  mem         := []
  fbUpdate    := false
  inputs      := []
  cycle       := 0

end Sys2Proof.Machine
end

