-- ==== Sys2Proof/Machine/Ops.lean ====
section
/-! DEFINITION. The named operations over memory, registers, the stack, the framebuffer and the program
counter, and taking a fault (`20_memory.md`, `10_state.md`, `60_exceptions.md` R232). Every meaning is
written over these. -/

namespace Sys2Proof.Machine

/-! ### Memory (R50 to R57) -/

/-- The parameter `FONT` at its default (R165; log 6). -/
def font : List Byte := Config.classicFont

/-- What an unlisted address reads as: the reset contents before a program is loaded, the glyphs at
0x000..0x04F and zero everywhere else (R56). -/
def Memory.unlisted (a : Nat) : Byte := font.getD a 0

/-- `MemRead(a, 1)` (R10). -/
def Memory.read : Memory → Nat → Byte
  | [], a => Memory.unlisted a
  | (b, u) :: rest, a => if a = b then u else Memory.read rest a

/-- A cell put in front of others, unless it holds what its address reads as unlisted. -/
def Memory.cons (a : Nat) (u : Byte) (m : Memory) : Memory :=
  if u = Memory.unlisted a then m else (a, u) :: m

/-- Setting a cell of a canonical list. -/
def Memory.insert : Memory → Nat → Byte → Memory
  | [], a, u => Memory.cons a u []
  | (b, w) :: rest, a, u =>
    if a < b then Memory.cons a u ((b, w) :: rest)
    else if a = b then Memory.cons a u rest
    else (b, w) :: Memory.insert rest a u

/-- `MemWrite(a, 1, u)` (R10). There is no cell at 4096 and above; every meaning checks its range first
(R52), so no meaning writes there. -/
def Memory.write (m : Memory) (a : Nat) (u : Byte) : Memory :=
  if a < Config.memSize then Memory.insert m a u else m

/-- Bytes written to ascending addresses from `a` (R53). -/
def Memory.writeBytes : Memory → Nat → List Byte → Memory
  | m, _, [] => m
  | m, a, u :: rest => Memory.writeBytes (Memory.write m a u) (a + 1) rest

/-- The big-endian word at `a` (R53, R101). -/
def Memory.wordAt (m : Memory) (a : Nat) : Word := wordOfBytes (m.read a) (m.read (a + 1))

/-- The canonical form: addresses strictly rising and inside MemorySpace, and no cell that holds what
its address reads as unlisted. -/
abbrev Memory.wf (m : Memory) : Prop :=
  m.Pairwise (fun c d => c.1 < d.1) ∧ ∀ c ∈ m, c.1 < Config.memSize ∧ c.2 ≠ Memory.unlisted c.1

/-- `check_range(lo, count)` succeeds: no address of the operation is above 0xFFF (R52). With
`count = 0` nothing is touched and, as `lo ≤ 0xFFF`, the check succeeds too. -/
def rangeOk (lo count : Nat) : Bool := decide (lo + count ≤ Config.memSize)

/-- The address a failed range check reports: the first one above 0xFFF the operation would have
touched (R52). -/
def rangeFaultAddr (lo : Nat) : PcVal := BitVec.ofNat 13 (max lo Config.memSize)

/-! ### Registers (R20) -/

/-- `V[x]`. -/
def State.reg (s : State) (x : VReg) : Byte := s.v[x.val]

/-- `V[x] <- u`. -/
def State.setReg (s : State) (x : VReg) (u : Byte) : State := { s with v := s.v.set x.val u }

/-! ### The program counter (R103 to R105) -/

/-- The next PC of a sequential instruction (R103). -/
def State.advance (s : State) : State := { s with pc := s.pc + 2 }

/-- The next PC of a skip with condition `c` (R104). -/
def State.skipIf (s : State) (c : Bool) : State := { s with pc := s.pc + (if c then 4 else 2) }

/-- A control transfer: the next fetch is at `target` (R105). -/
def State.goto (s : State) (target : PcVal) : State := { s with pc := target }

/-! ### The call stack (R25, R26) -/

/-- `stack[k]`. -/
def State.stackAt (s : State) (k : BitVec 4) : Addr := s.stack[k.toNat]'k.isLt

/-- The call's push: SP rises by 1, then `stack[SP] <- pc` (R110). A fetched `call` has PC at most
0xFFE, which fits the 12-bit slot (R25). -/
def State.pushPc (s : State) : State :=
  { s with
    sp := s.sp + 1
    stack := s.stack.set (s.sp + 1).toNat (s.pc.setWidth 12) (s.sp + 1).isLt }

/-- The return's pop: SP falls by 1, the slot keeps its value (R108, R25). -/
def State.popSp (s : State) : State := { s with sp := s.sp - 1 }

/-! ### The framebuffer (R29) -/

/-- `FB[row][col]`. -/
def Framebuffer.pixel (fb : Framebuffer) (row : Fin 32) (col : Fin 64) : Bool := fb[row.val][col.val]

/-- `FB[row][col] <- not FB[row][col]`. -/
def Framebuffer.toggle (fb : Framebuffer) (row : Fin 32) (col : Fin 64) : Framebuffer :=
  fb.set row.val (fb[row.val].set col.val (!fb.pixel row col))

/-- The pixel of the machine's framebuffer. -/
def State.pixel (s : State) (row : Fin 32) (col : Fin 64) : Bool := s.fb.pixel row col

/-- FB takes a new value and `signal_render()` is pulsed (R180). -/
def State.present (s : State) (fb : Framebuffer) : State := { s with fb := fb, fbUpdate := true }

/-! ### The cycle's inputs (R36, R100, R245) -/

/-- The inputs of the current cycle: the next scheduled ones, or free values. With nothing scheduled
the host has not asked to quit (R246, D13; log 2). -/
def State.input (s : State) : CycleInput :=
  match s.inputs with
  | inp :: _ => inp
  | [] =>
    { quit := false
      keyEdge := Config.freeKeyEdge s.cycle
      tick := Config.freeTick s.cycle
      rand := Config.freeRand s.cycle
      now := Config.freeNow s.cycle }

/-! ### Taking a fault (R232) -/

/-- The word of the executing instruction: the two bytes at PC. Nothing writes memory between a fetch
and the fault of the instruction fetched (R52, R169), so it is the fetched word. -/
def State.currentWord (s : State) : Word := s.mem.wordAt s.pc.toNat

/-- Fault entry, the same for all six codes: the record is written, the mode becomes FAULTED, PC keeps
the address of the faulting instruction, nothing else changes. There is no return from a fault (R230,
R234): no operation stands beside this one. -/
def State.enterFault (s : State) (code : FaultCode) (word : Option Word) (info : Option PcVal) :
    State :=
  { s with
    mode := .faulted
    faultRecord := some { code := code, pc := s.pc, word := word, info := info } }

/-- An instruction's own check failed (codes 3 to 6): the record holds the instruction's word. -/
def State.instrFault (s : State) (code : FaultCode) (info : Option PcVal) : State :=
  s.enterFault code (some s.currentWord) info

/-- An instruction that touches `count` bytes from `lo`: the whole range is checked before any access
(R52); if it holds, the machine goes on as `ok`, else it takes MEM_OUT_OF_RANGE. -/
def State.withRange (s : State) (lo count : Nat) (ok : State) : State :=
  if rangeOk lo count then ok else s.instrFault .memOutOfRange (some (rangeFaultAddr lo))

end Sys2Proof.Machine
end

