-- ==== Sys2Proof/Machine/Operands.lean ====
section
/-! DEFINITION. The operand computations of the instruction rules: values formed from registers and
immediates before anything is written (`00_scope.md` R9, R11). All arithmetic is unsigned. -/

namespace Sys2Proof.Machine

/-! ### 8-bit arithmetic, modulo 256 (R130, R143) -/

/-- `(a + b) mod 256`. -/
def wrapAdd (a b : Byte) : Byte := BitVec.ofNat 8 ((a.toNat + b.toNat) % 256)

/-- `(a - b) mod 256`. -/
def wrapSub (a b : Byte) : Byte := BitVec.ofNat 8 ((a.toNat + 256 - b.toNat) % 256)

/-- `a >> 1` (R139). -/
def shiftRight1 (a : Byte) : Byte := BitVec.ofNat 8 (a.toNat / 2)

/-- `(a << 1) mod 256` (R141). -/
def shiftLeft1 (a : Byte) : Byte := BitVec.ofNat 8 (a.toNat * 2 % 256)

/-! ### Control-transfer targets (R105) -/

/-- A 12-bit address operand as a PC. -/
def pcOfAddr (a : Addr) : PcVal := a.setWidth 13

/-- The target of `jump V0,nnn`: the exact sum, at most 0x10FE (R118). -/
def jumpV0Target (v0 : Byte) (nnn : Addr) : PcVal := BitVec.ofNat 13 (v0.toNat + nnn.toNat)

/-- The target of `return`: the popped address of the call, plus 2 (R108). -/
def returnTarget (a : Addr) : PcVal := pcOfAddr a + 2

/-! ### The index register (R160 to R164) -/

/-- `I + zext(V[x])`, exact, at most 0x10FE (R162). -/
def indexSum (i : Addr) (u : Byte) : Nat := i.toNat + u.toNat

/-- `zext(V[x]) * 5`, with no masking of V[x], at most 0x4FB (R164). -/
def glyphAddr (u : Byte) : Addr := BitVec.ofNat 12 (u.toNat * Config.fontStride)

/-! ### Decimal digits (R166) -/

/-- The hundreds, tens and ones of a byte, the hundreds first. -/
def bcdDigits (a : Byte) : List Byte :=
  [BitVec.ofNat 8 (a.toNat / 100), BitVec.ofNat 8 (a.toNat / 10 % 10), BitVec.ofNat 8 (a.toNat % 10)]

/-! ### Register lists (R168, R170) -/

/-- V0..Vx in ascending order. -/
def State.regsUpTo (s : State) (x : VReg) : List Byte := s.v.toList.take (x.val + 1)

/-- V0..Vx loaded from ascending addresses from `a`, the other registers kept. -/
def State.loadRegs (s : State) (x : VReg) (a : Nat) : State :=
  { s with v := Vector.ofFn fun k : Fin 16 => if k ≤ x then s.mem.read (a + k.val) else s.reg k }

/-! ### Sprite coordinates (R184, R185) -/

/-- `(cx + b) mod 64`. -/
def wrapCol (cx : Byte) (b : Nat) : Fin 64 := ⟨(cx.toNat + b) % 64, Nat.mod_lt _ (by decide)⟩

/-- `(cy + r) mod 32`. -/
def wrapRow (cy : Byte) (r : Nat) : Fin 32 := ⟨(cy.toNat + r) % 32, Nat.mod_lt _ (by decide)⟩

/-- Bit `b` of a sprite byte, counted from the most significant (R184). -/
def spriteBit (byte : Byte) (b : Nat) : Bool := byte.getLsbD (7 - b)

/-! ### Key edges (R202, R203) -/

/-- The cycle's key edge is there and equals V[x] in all 8 bits. -/
def keyMatches (edge : Option Nibble) (u : Byte) : Bool :=
  match edge with
  | none => false
  | some k => k.toNat == u.toNat

end Sys2Proof.Machine
end

