-- ==== Sys2Proof/Machine/Flags.lean ====
section
/-! DEFINITION. The flag computations. VF is the only flag (`10_state.md` R21, R35): carry, no-borrow,
the bit shifted out, and the collision of `draw`. -/

namespace Sys2Proof.Machine

/-- A flag as the value of VF. -/
def flagByte (b : Bool) : Byte := if b then 1 else 0

/-- The carry of `add Vx,Vy`: 1 exactly when a + b > 255 (R137). -/
def carryOut (a b : Byte) : Bool := decide (a.toNat + b.toNat > 255)

/-- The no-borrow flag of a subtraction `a - b`: 1 exactly when a >= b (R138, R140). -/
def noBorrow (a b : Byte) : Bool := decide (a.toNat ≥ b.toNat)

/-- The bit `shr` shifts out: bit 0 (R139). -/
def shiftedOutLow (a : Byte) : Bool := a.getLsbD 0

/-- The bit `shl` shifts out: bit 7 (R141). -/
def shiftedOutHigh (a : Byte) : Bool := a.getLsbD 7

/-- The parameter `VF_ALIAS` at its default (R142, U2; log 7). -/
def vfAlias : Config.VfAlias := .resultWins

/-- The two writes of a flag-setting ALU instruction, the flag to VF and the result to Vx, in the order
`alias` gives: with x = F the later write is VF's final value (R130, R142). -/
def State.writeFlagged (s : State) (order : Config.VfAlias) (x : VReg) (flag : Bool) (result : Byte) :
    State :=
  match order with
  | .resultWins => (s.setReg VF (flagByte flag)).setReg x result
  | .flagWins => (s.setReg x result).setReg VF (flagByte flag)

end Sys2Proof.Machine
end

