-- ==== Sys2Proof/Machine/ControlFlow.lean ====
section
/-! DEFINITION. The meanings of the control-transfer family (`40_control_flow.md` R108 to R118). -/

namespace Sys2Proof.Machine

/-- `return` (R108): pops the address of the call and resumes after it; STACK_UNDERFLOW when SP = 0. -/
def execRet (s : State) : Host.Outcome State Fault Refusal :=
  if s.sp = 0 then .next (s.instrFault .stackUnderflow none)
  else .next (s.popSp.goto (returnTarget (s.stackAt s.sp)))

/-- `jump nnn` (R109). -/
def execJump (nnn : Addr) (s : State) : Host.Outcome State Fault Refusal :=
  .next (s.goto (pcOfAddr nnn))

/-- `call nnn` (R110): pushes its own address; STACK_OVERFLOW when SP = 15. -/
def execCall (nnn : Addr) (s : State) : Host.Outcome State Fault Refusal :=
  if s.sp = 15 then .next (s.instrFault .stackOverflow none)
  else .next (s.pushPc.goto (pcOfAddr nnn))

/-- `skip-eq Vx,nn` (R112). -/
def execSkipEqImm (x : VReg) (nn : Byte) (s : State) : Host.Outcome State Fault Refusal :=
  .next (s.skipIf (s.reg x == nn))

/-- `skip-ne Vx,nn` (R113). -/
def execSkipNeImm (x : VReg) (nn : Byte) (s : State) : Host.Outcome State Fault Refusal :=
  .next (s.skipIf (s.reg x != nn))

/-- `skip-eq Vx,Vy` (R114). -/
def execSkipEqReg (x y : VReg) (s : State) : Host.Outcome State Fault Refusal :=
  .next (s.skipIf (s.reg x == s.reg y))

/-- `skip-ne Vx,Vy` (R115). -/
def execSkipNeReg (x y : VReg) (s : State) : Host.Outcome State Fault Refusal :=
  .next (s.skipIf (s.reg x != s.reg y))

/-- `jump V0,nnn` (R118): the register is always V0. -/
def execJumpV0 (nnn : Addr) (s : State) : Host.Outcome State Fault Refusal :=
  .next (s.goto (jumpV0Target (s.reg 0) nnn))

end Sys2Proof.Machine
end

