-- ==== Sys2Proof/Machine/Display.lean ====
section
/-! DEFINITION. The framebuffer instructions (`43_display.md` R181 to R187). -/

namespace Sys2Proof.Machine

/-- `clear-display` (R181): VF is unaffected. -/
def execClearDisplay (s : State) : Host.Outcome State Fault Refusal :=
  .next (s.present Framebuffer.clear).advance

/-! The sprite loop of R184. The accumulator is the framebuffer so far and whether a lit pixel has been
turned off. -/

/-- One sprite bit: a 1 inverts its pixel, and a lit pixel inverted is a collision; a 0 does nothing. -/
def plotBit (row : Fin 32) (cx byte : Byte) (acc : Framebuffer × Bool) (b : Nat) : Framebuffer × Bool :=
  if spriteBit byte b then
    (acc.1.toggle row (wrapCol cx b), acc.2 || acc.1.pixel row (wrapCol cx b))
  else acc

/-- One sprite row: the byte at `a + r`, its bits from the most significant. -/
def plotRow (m : Memory) (a : Nat) (cx cy : Byte) (acc : Framebuffer × Bool) (r : Nat) :
    Framebuffer × Bool :=
  (List.range 8).foldl (plotBit (wrapRow cy r) cx (m.read (a + r))) acc

/-- The `n` rows of a sprite at `a`, drawn at column `cx` and row `cy`. -/
def plotSprite (m : Memory) (a : Nat) (cx cy : Byte) (n : Nat) (fb : Framebuffer) :
    Framebuffer × Bool :=
  (List.range n).foldl (plotRow m a cx cy) (fb, false)

/-- `draw Vx,Vy,n` (R184): the coordinates are sampled before VF is written (R183). -/
def execDraw (x y : VReg) (n : Nat) (s : State) : Host.Outcome State Fault Refusal :=
  let drawn := plotSprite s.mem s.i.toNat (s.reg x) (s.reg y) n s.fb
  .next (s.withRange s.i.toNat n ((s.setReg VF (flagByte drawn.2)).present drawn.1).advance)

end Sys2Proof.Machine
end

