-- ==== Sys2Proof/Machine/IndexMemory.lean ====
section
/-! DEFINITION. The meanings of the index register and memory instructions (`42_index_memory.md` R160 to
R171). None writes VF as a flag, none changes I as a side effect. -/

namespace Sys2Proof.Machine

/-- `load I,nnn` (R160). -/
def execLoadI (nnn : Addr) (s : State) : Host.Outcome State Fault Refusal :=
  .next { s with i := nnn }.advance

/-- `add I,Vx` (R162): INDEX_OUT_OF_RANGE with the sum when it exceeds 0xFFF. -/
def execAddI (x : VReg) (s : State) : Host.Outcome State Fault Refusal :=
  if indexSum s.i (s.reg x) > 0xFFF then
    .next (s.instrFault .indexOutOfRange (some (BitVec.ofNat 13 (indexSum s.i (s.reg x)))))
  else .next { s with i := BitVec.ofNat 12 (indexSum s.i (s.reg x)) }.advance

/-- `load I,font(Vx)` (R164). -/
def execLoadFont (x : VReg) (s : State) : Host.Outcome State Fault Refusal :=
  .next { s with i := glyphAddr (s.reg x) }.advance

/-- `store-bcd Vx` (R166): three digits at I. -/
def execStoreBcd (x : VReg) (s : State) : Host.Outcome State Fault Refusal :=
  .next (s.withRange s.i.toNat 3
    { s with mem := s.mem.writeBytes s.i.toNat (bcdDigits (s.reg x)) }.advance)

/-- `store-regs Vx` (R168): V0..Vx at I. -/
def execStoreRegs (x : VReg) (s : State) : Host.Outcome State Fault Refusal :=
  .next (s.withRange s.i.toNat (x.val + 1)
    { s with mem := s.mem.writeBytes s.i.toNat (s.regsUpTo x) }.advance)

/-- `read-regs Vx` (R170): V0..Vx from I. -/
def execReadRegs (x : VReg) (s : State) : Host.Outcome State Fault Refusal :=
  .next (s.withRange s.i.toNat (x.val + 1) (s.loadRegs x s.i.toNat).advance)

end Sys2Proof.Machine
end

