-- ==== Sys2Proof/Machine/RegisterAlu.lean ====
section
/-! DEFINITION. The meanings of the register loads and the 8-bit ALU (`41_register_alu.md` R131 to R141,
R146). None can fault; every one advances PC by 2. -/

namespace Sys2Proof.Machine

/-- `load Vx,nn` (R131). -/
def execLoadImm (x : VReg) (nn : Byte) (s : State) : Host.Outcome State Fault Refusal :=
  .next (s.setReg x nn).advance

/-- `add Vx,nn` (R132): no flag. -/
def execAddImm (x : VReg) (nn : Byte) (s : State) : Host.Outcome State Fault Refusal :=
  .next (s.setReg x (wrapAdd (s.reg x) nn)).advance

/-- `load Vx,Vy` (R133). -/
def execLoadReg (x y : VReg) (s : State) : Host.Outcome State Fault Refusal :=
  .next (s.setReg x (s.reg y)).advance

/-- `or Vx,Vy` (R134): no flag. -/
def execOrReg (x y : VReg) (s : State) : Host.Outcome State Fault Refusal :=
  .next (s.setReg x (s.reg x ||| s.reg y)).advance

/-- `and Vx,Vy` (R135): no flag. -/
def execAndReg (x y : VReg) (s : State) : Host.Outcome State Fault Refusal :=
  .next (s.setReg x (s.reg x &&& s.reg y)).advance

/-- `xor Vx,Vy` (R136): no flag. -/
def execXorReg (x y : VReg) (s : State) : Host.Outcome State Fault Refusal :=
  .next (s.setReg x (s.reg x ^^^ s.reg y)).advance

/-- `add Vx,Vy` (R137): VF is the carry. -/
def execAddReg (x y : VReg) (s : State) : Host.Outcome State Fault Refusal :=
  .next (s.writeFlagged vfAlias x (carryOut (s.reg x) (s.reg y)) (wrapAdd (s.reg x) (s.reg y))).advance

/-- `sub Vx,Vy` (R138): VF is no-borrow. -/
def execSubReg (x y : VReg) (s : State) : Host.Outcome State Fault Refusal :=
  .next (s.writeFlagged vfAlias x (noBorrow (s.reg x) (s.reg y)) (wrapSub (s.reg x) (s.reg y))).advance

/-- `shr Vx` (R139): VF is the bit shifted out. -/
def execShr (x : VReg) (s : State) : Host.Outcome State Fault Refusal :=
  .next (s.writeFlagged vfAlias x (shiftedOutLow (s.reg x)) (shiftRight1 (s.reg x))).advance

/-- `subn Vx,Vy` (R140): the difference the other way round. -/
def execSubnReg (x y : VReg) (s : State) : Host.Outcome State Fault Refusal :=
  .next (s.writeFlagged vfAlias x (noBorrow (s.reg y) (s.reg x)) (wrapSub (s.reg y) (s.reg x))).advance

/-- `shl Vx` (R141): VF is the bit shifted out. -/
def execShl (x : VReg) (s : State) : Host.Outcome State Fault Refusal :=
  .next (s.writeFlagged vfAlias x (shiftedOutHigh (s.reg x)) (shiftLeft1 (s.reg x))).advance

/-- `random Vx,nn` (R146): the cycle's random byte, masked. -/
def execRandom (x : VReg) (nn : Byte) (s : State) : Host.Outcome State Fault Refusal :=
  .next (s.setReg x (s.input.rand &&& nn)).advance

end Sys2Proof.Machine
end

