-- ==== Sys2Proof/Machine/TimersInput.lean ====
section
/-! DEFINITION. The meanings of the key and timer instructions (`44_timers_input.md` R202 to R209). -/

namespace Sys2Proof.Machine

/-- `skip-key-pressed Vx` (R202). -/
def execSkipKeyPressed (x : VReg) (s : State) : Host.Outcome State Fault Refusal :=
  .next (s.skipIf (keyMatches s.input.keyEdge (s.reg x)))

/-- `skip-key-not-pressed Vx` (R203): with no edge it skips. -/
def execSkipKeyNotPressed (x : VReg) (s : State) : Host.Outcome State Fault Refusal :=
  .next (s.skipIf (!keyMatches s.input.keyEdge (s.reg x)))

/-- `load Vx,DT` (R206): the value before this cycle's decay. -/
def execLoadFromDT (x : VReg) (s : State) : Host.Outcome State Fault Refusal :=
  .next (s.setReg x s.dt).advance

/-- A key edge is written to Vx, zero-extended (R204, R205). -/
def State.takeKey (s : State) (x : VReg) (k : Nibble) : State := s.setReg x (k.setWidth 8)

/-- `next = WAIT`: mode AWAIT_KEY with destination x; PC stays at the instruction (R100, R105). -/
def State.enterWait (s : State) (x : VReg) : State := { s with mode := .awaitKey, awaitX := x }

/-- `load Vx,K` (R204): an edge of the dispatching cycle completes it, else the CORE waits. -/
def execWaitKey (x : VReg) (s : State) : Host.Outcome State Fault Refusal :=
  .next (match s.input.keyEdge with
    | some k => (s.takeKey x k).advance
    | none => s.enterWait x)

/-- `load DT,Vx` (R208): `last_decay` is not touched. -/
def execLoadDT (x : VReg) (s : State) : Host.Outcome State Fault Refusal :=
  .next { s with dt := s.reg x }.advance

/-- `load ST,Vx` (R209): the tone follows. -/
def execLoadST (x : VReg) (s : State) : Host.Outcome State Fault Refusal :=
  .next { s with st := s.reg x, toneActive := s.reg x != 0 }.advance

end Sys2Proof.Machine
end

