-- ==== Sys2Proof/Machine/Cycle.lean ====
section
/-! DEFINITION. The execution cycle (`40_control_flow.md` R100 to R102), the key wait
(`44_timers_input.md` R205) and the timer gate (R210, R211). -/

namespace Sys2Proof.Machine

/-- `Fetch(pc)`: the word at PC, or nothing when PC + 1 is above 0xFFF (R101). -/
def State.fetch (s : State) : Option Word :=
  if rangeOk s.pc.toNat 2 then some s.currentWord else none

/-- FETCH_OUT_OF_RANGE: no word; the first out-of-range byte of the fetch (R101, R231). -/
def State.fetchFault (s : State) : State :=
  s.enterFault .fetchOutOfRange none (some (rangeFaultAddr s.pc.toNat))

/-- UNKNOWN_INSTRUCTION with the raw word (R74, R231). -/
def State.unknownFault (s : State) (w : Word) : State :=
  s.enterFault .unknownInstruction (some w) none

/-- The start of a cycle: the render pulse of the cycle before is over (R180, R245). -/
def State.beginCycle (s : State) : State := { s with fbUpdate := false }

/-- The end of a cycle: its inputs are gone, an unconsumed key edge among them (R36). -/
def State.endCycle (s : State) : State := { s with inputs := s.inputs.tail, cycle := s.cycle + 1 }

/-- The quit signal: mode HALTED and nothing else (R216). -/
def State.quitCycle (s : State) : State := { s with mode := .halted }

/-- A counter that falls by 1 and stays at 0 (R211). -/
def decay (t : Byte) : Byte := if t = 0 then 0 else t - 1

/-- `timer_gate`: on a tick both timers decay, the tone stops when ST is 0, and `last_decay` is the
time of the tick (R210, R211). -/
def State.timerGate (s : State) (inp : CycleInput) : State :=
  { s with
    dt := if inp.tick then decay s.dt else s.dt
    st := if inp.tick then decay s.st else s.st
    toneActive := if inp.tick && decay s.st == 0 then false else s.toneActive
    lastDecay := if inp.tick then inp.now else s.lastDecay }

/-- `resume_wait`: a key edge goes to V[await_x], PC moves past the instruction and the mode is RUN;
without one nothing happens (R205). -/
def State.resumeWait (s : State) (inp : CycleInput) : State :=
  match inp.keyEdge with
  | some k => { (s.takeKey s.awaitX k).advance with mode := .run }
  | none => s

/-- What follows the instruction in its cycle: the timer gate, unless the instruction faulted (R100,
R232), and the end of the cycle. -/
def State.finishCycle (s : State) (inp : CycleInput) : State :=
  if s.mode = .faulted then s.endCycle else (s.timerGate inp).endCycle

/-- The body of a cycle in mode RUN: fetch, decode, execute, timer gate (R100); the first failing check
raises its fault (R233). -/
def State.runCycle (s : State) (inp : CycleInput) : Host.Outcome State Fault Refusal :=
  match s.fetch with
  | none => .next (s.fetchFault.finishCycle inp)
  | some w =>
    match decodeWord w with
    | none => .next ((s.unknownFault w).finishCycle inp)
    | some i =>
      match exec i s with
      | .next t => .next (t.finishCycle inp)
      | .fault r => .fault r
      | .refused r => .refused r

/-- One cycle (R100). HALTED and FAULTED are terminal (R263); quit comes before everything else (R216,
R233). -/
def State.oneCycle (s : State) : Host.Outcome State Fault Refusal :=
  match s.mode with
  | .halted => .next s
  | .faulted => .next s
  | .run =>
    if s.input.quit then .next s.beginCycle.quitCycle.endCycle
    else s.beginCycle.runCycle s.input
  | .awaitKey =>
    if s.input.quit then .next s.beginCycle.quitCycle.endCycle
    else .next ((s.beginCycle.resumeWait s.input).finishCycle s.input)

/-! ### Placing an instruction where the next cycle fetches it -/

/-- The inputs of the coming cycles with the quit signal of the next one taken away. -/
def withoutQuit : List CycleInput → List CycleInput
  | [] => []
  | inp :: rest => { inp with quit := false } :: rest

/-- The state in which the next cycle fetches and runs the word `w`: `w` stands at PC, big-endian, or
at 0x200 where PC is out of a fetch's range; the mode is RUN and the next cycle does not quit. -/
def State.placeWord (s : State) (w : Word) : State :=
  let pc : PcVal := if rangeOk s.pc.toNat 2 then s.pc else BitVec.ofNat 13 Config.progBase
  { s with
    pc := pc
    mode := .run
    inputs := withoutQuit s.inputs
    mem := s.mem.writeBytes pc.toNat (bytesOfWord w) }

end Sys2Proof.Machine
end

