-- ==== Sys2Proof/Machine/Step.lean ====
section
/-! DEFINITION. The step: one cycle of the CORE (`40_control_flow.md` R100; R243 "each cycle is one call
of the step"). -/

namespace Sys2Proof.Machine

/-- One step is one cycle. -/
def step (s : State) : Host.Outcome State Fault Refusal := s.oneCycle

/-- The state with the instruction whose bits are `w` (numbered as the opcode table numbers them, the
bits above `nbits` zero) standing where the next step fetches. -/
def State.withFetchWord (s : State) (nbits w : Nat) : State :=
  s.placeWord (BitVec.ofNat 16 (w % 2 ^ nbits))

end Sys2Proof.Machine
end

