-- ==== Sys2Proof/Machine/Boot.lean ====
section
/-! DEFINITION. The reset sequence with a font and a program (`70_reset_and_hazards.md` R261). -/

namespace Sys2Proof.Machine

/-- Memory after reset: the glyph bytes, zeros, and the program from 0x200 (R261, R56). -/
def bootMemory (glyphs : Vector Byte 80) (prog : List Byte) : Memory :=
  Memory.writeBytes (Memory.writeBytes [] 0 glyphs.toList) Config.progBase prog

/-- `reset(prog_load_ok, prog_bytes)` for a given `FONT` (R261): LOAD_FAILED when the loader could not
read the file or the program is longer than 3584 bytes. -/
def State.boot (progLoadOk : Bool) (glyphs : Vector Byte 80) (prog : List Byte) : BootOutcome :=
  if progLoadOk && decide (prog.length ≤ Config.maxProgLen) then
    .ready { State.reset with mem := bootMemory glyphs prog }
  else .loadFailed

end Sys2Proof.Machine
end

