-- ==== Sys2Proof/Safety.lean ====
section
/-! DEFINITION. The terms the statements use: what a state that a run can reach satisfies
(`10_state.md` R38), what an instruction leaves unchanged, which fault is due in a cycle
(`60_exceptions.md` R231, R233), and the host's duty of R246. The step uses none of them. -/

namespace Sys2Proof

/-! ### Instructions by what they read and write, and their words -/

/-- The instructions whose effect depends on the key edge (R236). -/
def Instr.readsKey : Instr → Bool
  | .skipKeyPressed _ | .skipKeyNotPressed _ | .waitKey _ => true
  | .clearDisplay | .ret | .jump _ | .call _ | .skipEqImm _ _ | .skipNeImm _ _ | .skipEqReg _ _
  | .loadImm _ _ | .addImm _ _ | .loadReg _ _ | .orReg _ _ | .andReg _ _ | .xorReg _ _
  | .addReg _ _ | .subReg _ _ | .shr _ | .subnReg _ _ | .shl _ | .skipNeReg _ _ | .loadI _
  | .jumpV0 _ | .random _ _ | .draw _ _ _ | .loadFromDT _ | .loadDT _ | .loadST _ | .addI _
  | .loadFont _ | .storeBcd _ | .storeRegs _ | .readRegs _ => false

/-- The instruction whose effect depends on the random byte (R146). -/
def Instr.readsRand : Instr → Bool
  | .random _ _ => true
  | .clearDisplay | .ret | .jump _ | .call _ | .skipEqImm _ _ | .skipNeImm _ _ | .skipEqReg _ _
  | .loadImm _ _ | .addImm _ _ | .loadReg _ _ | .orReg _ _ | .andReg _ _ | .xorReg _ _
  | .addReg _ _ | .subReg _ _ | .shr _ | .subnReg _ _ | .shl _ | .skipNeReg _ _ | .loadI _
  | .jumpV0 _ | .draw _ _ _ | .skipKeyPressed _ | .skipKeyNotPressed _ | .loadFromDT _
  | .waitKey _ | .loadDT _ | .loadST _ | .addI _ | .loadFont _ | .storeBcd _ | .storeRegs _
  | .readRegs _ => false

/-- The six instructions that write VF as a side effect (R21). -/
def Instr.setsFlag : Instr → Bool
  | .addReg _ _ | .subReg _ _ | .shr _ | .subnReg _ _ | .shl _ | .draw _ _ _ => true
  | .clearDisplay | .ret | .jump _ | .call _ | .skipEqImm _ _ | .skipNeImm _ _ | .skipEqReg _ _
  | .loadImm _ _ | .addImm _ _ | .loadReg _ _ | .orReg _ _ | .andReg _ _ | .xorReg _ _
  | .skipNeReg _ _ | .loadI _ | .jumpV0 _ | .random _ _ | .skipKeyPressed _
  | .skipKeyNotPressed _ | .loadFromDT _ | .waitKey _ | .loadDT _ | .loadST _ | .addI _
  | .loadFont _ | .storeBcd _ | .storeRegs _ | .readRegs _ => false

/-- Whether `r` is the register the instruction names as its destination, or one of those `read-regs`
loads (R131 to R141, R146, R170, R204, R206). -/
def Instr.namesAsDest (r : VReg) : Instr → Bool
  | .loadImm x _ | .addImm x _ | .loadReg x _ | .orReg x _ | .andReg x _ | .xorReg x _
  | .addReg x _ | .subReg x _ | .shr x | .subnReg x _ | .shl x | .random x _ | .loadFromDT x
  | .waitKey x => r == x
  | .readRegs x => decide (r ≤ x)
  | .clearDisplay | .ret | .jump _ | .call _ | .skipEqImm _ _ | .skipNeImm _ _ | .skipEqReg _ _
  | .skipNeReg _ _ | .loadI _ | .jumpV0 _ | .draw _ _ _ | .skipKeyPressed _
  | .skipKeyNotPressed _ | .loadDT _ | .loadST _ | .addI _ | .loadFont _ | .storeBcd _
  | .storeRegs _ => false

/-- The word of value `n` decodes as `i`: the "Encoding" line of an instruction's rule. -/
def EncodedAs (i : Instr) (n : Nat) : Prop := decodeWord (BitVec.ofNat 16 n) = some i

end Sys2Proof

namespace Sys2Proof.Machine

/-! ### The invariant -/

/-- The two terminal modes (R30, R263). -/
def Mode.terminal : Mode → Bool
  | .halted | .faulted => true
  | .run | .awaitKey => false

/-- The instruction at PC: what the next fetch and decode give, if they give one (R101, R74). -/
def State.nextInstr (s : State) : Option Instr := s.fetch.bind decodeWord

/-- The invariants of R38 (`I <= 0xFFF` and `SP <= 15` hold by the types), with what they rest on:
memory in canonical form, slots that hold addresses of calls and slot 0 never written (R25), a fault
record exactly in mode FAULTED (R33), and no render pulse in a terminal mode (R180, R263). -/
structure State.Inv (s : State) : Prop where
  memCanonical : s.mem.wf
  pcBound : s.pc.toNat ≤ 0x10FE
  toneFollows : s.toneActive = (s.st != 0)
  waitsAtKeyWait : s.mode = .awaitKey → s.nextInstr = some (.waitKey s.awaitX)
  recordIffFaulted : s.faultRecord.isSome = (s.mode == .faulted)
  slotsHoldCalls : ∀ k, (s.stackAt k).toNat ≤ 0xFFE
  slotZeroUnwritten : s.stackAt 0 = 0
  stoppedSilent : s.mode.terminal = true → s.fbUpdate = false

/-! ### Frames -/

/-- What an instruction may change, PC aside; everything not named here stays. -/
structure MayChange where
  /-- The registers. -/
  regs : VReg → Bool := fun _ => false
  /-- I. -/
  index : Bool := false
  /-- SP. -/
  sp : Bool := false
  /-- The stack slots. -/
  slots : BitVec 4 → Bool := fun _ => false
  /-- DT. -/
  dt : Bool := false
  /-- ST and the tone flag. -/
  st : Bool := false
  /-- FB and the render pulse. -/
  display : Bool := false
  /-- The bytes of memory. -/
  mem : Nat → Bool := fun _ => false
  /-- The mode and the destination of a wait. -/
  mode : Bool := false

/-- From `s` to `t` nothing changes but PC and what `m` names. -/
structure Keeps (m : MayChange) (s t : State) : Prop where
  regs : ∀ r, m.regs r = false → t.reg r = s.reg r
  index : m.index = false → t.i = s.i
  sp : m.sp = false → t.sp = s.sp
  slots : ∀ k, m.slots k = false → t.stackAt k = s.stackAt k
  dt : m.dt = false → t.dt = s.dt
  st : m.st = false → t.st = s.st ∧ t.toneActive = s.toneActive
  display : m.display = false → (∀ row col, t.pixel row col = s.pixel row col) ∧ t.fbUpdate = s.fbUpdate
  mem : ∀ a, m.mem a = false → t.mem.read a = s.mem.read a
  mode : m.mode = false → t.mode = s.mode ∧ t.awaitX = s.awaitX
  lastDecay : t.lastDecay = s.lastDecay
  faultRecord : t.faultRecord = s.faultRecord
  inputs : t.inputs = s.inputs ∧ t.cycle = s.cycle

/-- The address lies in the `count` bytes from `lo`. -/
def inBytes (lo count a : Nat) : Bool := decide (lo ≤ a) && decide (a < lo + count)

/-- The state after a cycle that faults with record `r`: the record and the mode, and nothing else of
the CORE (R232); the cycle's inputs are used and there is no render pulse. -/
def State.afterFault (s : State) (r : FaultRecord) : State :=
  { s with
    mode := .faulted, faultRecord := some r
    fbUpdate := false, inputs := s.inputs.tail, cycle := s.cycle + 1 }

/-! ### Which fault is due (R231, R233) -/

/-- The record of the fault a cycle in mode RUN raises: the first check that fails, in the order fetch
range, decode, the instruction's own check. -/
def State.faultDue (s : State) : Option FaultRecord :=
  if s.pc.toNat + 1 > 0xFFF then
    some ⟨.fetchOutOfRange, s.pc, none, some (BitVec.ofNat 13 (max s.pc.toNat 0x1000))⟩
  else
    let w := wordOfBytes (s.mem.read s.pc.toNat) (s.mem.read (s.pc.toNat + 1))
    let memFault (count : Nat) : Option FaultRecord :=
      if s.i.toNat + count > 0x1000 then some ⟨.memOutOfRange, s.pc, some w, some 0x1000⟩ else none
    match decodeWord w with
    | none => some ⟨.unknownInstruction, s.pc, some w, none⟩
    | some (.call _) => if s.sp = 15 then some ⟨.stackOverflow, s.pc, some w, none⟩ else none
    | some .ret => if s.sp = 0 then some ⟨.stackUnderflow, s.pc, some w, none⟩ else none
    | some (.draw _ _ n) => if 0 < n then memFault n else none
    | some (.storeBcd _) => memFault 3
    | some (.storeRegs x) => memFault (x.val + 1)
    | some (.readRegs x) => memFault (x.val + 1)
    | some (.addI x) =>
      if s.i.toNat + (s.reg x).toNat > 0xFFF then
        some ⟨.indexOutOfRange, s.pc, some w, some (BitVec.ofNat 13 (s.i.toNat + (s.reg x).toNat))⟩
      else none
    | some .clearDisplay | some (.jump _) | some (.skipEqImm _ _) | some (.skipNeImm _ _)
    | some (.skipEqReg _ _) | some (.loadImm _ _) | some (.addImm _ _) | some (.loadReg _ _)
    | some (.orReg _ _) | some (.andReg _ _) | some (.xorReg _ _) | some (.addReg _ _)
    | some (.subReg _ _) | some (.shr _) | some (.subnReg _ _) | some (.shl _)
    | some (.skipNeReg _ _) | some (.loadI _) | some (.jumpV0 _) | some (.random _ _)
    | some (.skipKeyPressed _) | some (.skipKeyNotPressed _) | some (.loadFromDT _)
    | some (.waitKey _) | some (.loadDT _) | some (.loadST _) | some (.loadFont _) => none

/-! ### Sprites (R184 to R186) -/

/-- A 1 bit of the sprite falls on the pixel: some row `r` and bit `b` of the `n` bytes at I land there,
rows wrapping modulo 32 and columns modulo 64. -/
def State.spriteCovers (s : State) (x y : VReg) (n : Nat) (row : Fin 32) (col : Fin 64) : Bool :=
  decide (∃ r : Fin n, ∃ b : Fin 8,
    row.val = ((s.reg y).toNat + r.val) % 32 ∧ col.val = ((s.reg x).toNat + b.val) % 64 ∧
    (s.mem.read (s.i.toNat + r.val)).getLsbD (7 - b.val) = true)

/-! ### The host's duty (R210, R246) -/

/-- The coming cycle's tick is true exactly when at least 1/60 s has passed since the last decay. -/
def HostKeepsGate (s : State) : Prop :=
  s.input.tick =
    decide (Config.timeUnitsPerSecond + Config.timerHz * s.lastDecay ≤ Config.timerHz * s.input.now)

/-- A run of steps in which the host keeps its duty in every cycle that is not terminal, with the
number of cycles in which the gate fired. -/
inductive GatedRun : State → State → Nat → Prop where
  /-- No step. -/
  | start (s : State) : GatedRun s s 0
  /-- One more step; it counts when it moved `last_decay` on a tick. -/
  | next {s t u : State} {n : Nat} (run : GatedRun s t n) (gate : HostKeepsGate t)
      (one : step t = .next u) :
      GatedRun s u (n + if u.mode.terminal = false ∧ t.input.tick = true then 1 else 0)

end Sys2Proof.Machine
end

