-- ==== Sys2Proof/Certificates/Slice0/Obligations.lean ====
section
/-! DEFINITION. The statements about the model, from the numbered rules of `spec/`. Frames are said with
`Keeps` (everything but PC and what is named stays), faults with the whole next state. -/

open Sys2Proof Sys2Proof.Machine

/-! ### Encoding (`30_encoding.md`) -/

/-- R80: words of the opcode map, and words that match no row. The values but 0x6, 0x7 and 0xA are the
spec's decision D33. -/
def Obligations.OpcodeWordsDecode : Prop :=
  decodeWord 0x00E0 = some .clearDisplay ∧ decodeWord 0x00EE = some .ret ∧
  decodeWord 0x1ABC = some (.jump 0xABC) ∧ decodeWord 0x2ABC = some (.call 0xABC) ∧
  decodeWord 0x3A12 = some (.skipEqImm 0xA 0x12) ∧ decodeWord 0x4A12 = some (.skipNeImm 0xA 0x12) ∧
  decodeWord 0x5123 = some (.skipEqReg 1 2) ∧ decodeWord 0x6A05 = some (.loadImm 0xA 5) ∧
  decodeWord 0x7A01 = some (.addImm 0xA 1) ∧ decodeWord 0x8120 = some (.loadReg 1 2) ∧
  decodeWord 0x8124 = some (.addReg 1 2) ∧ decodeWord 0x8126 = some (.shr 1) ∧
  decodeWord 0x9125 = some (.skipNeReg 1 2) ∧ decodeWord 0xA210 = some (.loadI 0x210) ∧
  decodeWord 0xBABC = some (.jumpV0 0xABC) ∧ decodeWord 0xC50F = some (.random 5 0x0F) ∧
  decodeWord 0xDAB0 = some (.draw 0xA 0xB 0) ∧ decodeWord 0xE59E = some (.skipKeyPressed 5) ∧
  decodeWord 0xF10A = some (.waitKey 1) ∧ decodeWord 0xF255 = some (.storeRegs 2) ∧
  decodeWord 0x0000 = none ∧ decodeWord 0x00E1 = none ∧ decodeWord 0x01E0 = none ∧
  decodeWord 0x8008 = none ∧ decodeWord 0xE09F = none ∧ decodeWord 0xF1FF = none

/-- R70: every instruction is two bytes, the high byte first, and the decoder takes exactly those. -/
def Obligations.DecoderTakesTwoBytesBigEndian : Prop :=
  (∀ hi lo : Byte, (wordOfBytes hi lo).toNat = hi.toNat * 256 + lo.toNat) ∧
  (∀ (hi lo : Byte) (rest : List Byte) (i : Instr) (tail : List Byte),
    decode (hi :: lo :: rest) = .ok (i, tail) ↔
      decodeWord (wordOfBytes hi lo) = some i ∧ tail = rest) ∧
  (∀ b : Byte, decode [b] = .error .truncated) ∧ decode [] = .error .truncated

/-- R80: a decoded word carries the fixed bits of its instruction's row; a word decodes exactly when it
matches a row; no word matches two rows. The spec marks the last two as its inference from R77. -/
def Obligations.DecoderAgreesWithOpcodeMasks : Prop :=
  (∀ (w : Word) (i : Instr), decodeWord w = some i → i.row ∈ opcodeRows ∧ rowMatches w i.row = true) ∧
  (∀ w : Word, (decodeWord w).isSome = true ↔ ∃ row ∈ opcodeRows, rowMatches w row = true) ∧
  (∀ (w : Word), ∀ r ∈ opcodeRows, ∀ r' ∈ opcodeRows,
    rowMatches w r = true → rowMatches w r' = true → r = r')

/-- R79 (the spec's inference from R77): the words that decode as unknown, family by family, in
arithmetic on the word's value. -/
def Obligations.UnknownWordsByFamily : Prop :=
  ∀ w : Word, decodeWord w = none ↔
    (w.toNat / 4096 = 0x0 ∧ w ≠ 0x00E0 ∧ w ≠ 0x00EE) ∨
    (w.toNat / 4096 = 0x8 ∧ w.toNat % 16 ∈ [0x8, 0x9, 0xA, 0xB, 0xC, 0xD, 0xF]) ∨
    (w.toNat / 4096 = 0xE ∧ w.toNat % 256 ∉ [0x9E, 0xA1]) ∨
    (w.toNat / 4096 = 0xF ∧
      w.toNat % 256 ∉ [0x07, 0x0A, 0x15, 0x18, 0x1E, 0x29, 0x33, 0x55, 0x65])

/-- R78: the decoder ignores `n` of the register skips and `y` of the shifts, and no other bit: every
other bit of the word comes back from the decoded instruction. The spec's decision D5. -/
def Obligations.OnlyUnusedFieldsIgnored : Prop :=
  (∀ (w : Word) (i : Instr), decodeWord w = some i →
    encode i = w &&& ~~~i.ignoredBits) ∧
  (∀ (w w' : Word) (i : Instr), decodeWord w = some i →
    w' &&& ~~~i.ignoredBits = w &&& ~~~i.ignoredBits → decodeWord w' = some i)

/-- R70, R77, R80: decoding the bytes of any well-formed instruction gives it back, with every operand,
whatever bytes follow; and what decodes is well-formed. The encodings are the spec's decision D33. -/
def Obligations.DecodeEncodeRoundTrip : Prop :=
  (∀ (i : Instr) (rest : List Byte), i.wellFormed = true →
    decode (encodeBytes i ++ rest) = .ok (i, rest)) ∧
  (∀ (w : Word) (i : Instr), decodeWord w = some i → i.wellFormed = true)

/-! ### Reset and boot (`10_state.md` R40, `70_reset_and_hazards.md` R260, R261) -/

/-- R40, R260 for a program of length 0 and the default font. That `last_decay` is the number 0 is the
model's choice of the origin of time (log 5), and the ports start with nothing presented (log 1, 2, 4).
The values of I, FB, the tone flag, the fault record and the zero fill are the spec's decisions D32, D10,
D18, D26 and D11, the font D15. -/
def Obligations.ResetState : Prop :=
  (∀ r, State.reset.reg r = 0) ∧ State.reset.i = 0 ∧ State.reset.pc = 0x200 ∧ State.reset.sp = 0 ∧
  (∀ k, State.reset.stackAt k = 0) ∧ State.reset.dt = 0 ∧ State.reset.st = 0 ∧
  (∀ row col, State.reset.pixel row col = false) ∧ State.reset.mode = .run ∧
  State.reset.awaitX = 0 ∧ State.reset.toneActive = false ∧ State.reset.lastDecay = 0 ∧
  State.reset.faultRecord = none ∧
  (∀ a, a < 0x50 → State.reset.mem.read a = Config.classicFont.getD a 0) ∧
  (∀ a, 0x50 ≤ a → State.reset.mem.read a = 0)

/-- R261: a boot fails exactly when the loader failed or the program is longer than 3584 bytes; else
memory holds the font, the program from 0x200 and zeros, and every other piece of state is as
`State.reset` has it. The length limit and the zero fill are the spec's decision D11. -/
def Obligations.BootLoadsFontAndProgram : Prop :=
  ∀ (loadOk : Bool) (glyphs : Vector Byte 80) (prog : List Byte),
    (State.boot loadOk glyphs prog = .loadFailed ↔ loadOk = false ∨ 3584 < prog.length) ∧
    (∀ s, State.boot loadOk glyphs prog = .ready s →
      (∀ a, (h : a < 80) → s.mem.read a = glyphs[a]) ∧
      (∀ a, 0x50 ≤ a → a < 0x200 → s.mem.read a = 0) ∧
      (∀ k, k < prog.length → s.mem.read (0x200 + k) = prog.getD k 0) ∧
      (∀ a, 0x200 + prog.length ≤ a → s.mem.read a = 0) ∧
      s = { State.reset with mem := s.mem })

/-- R38 (the spec's inference) with what it rests on: the invariant holds right after reset. -/
def Obligations.InvariantAtReset : Prop := State.reset.Inv

/-- R38 (the spec's inference) with what it rests on: the invariant holds after a boot with any font and
any program. -/
def Obligations.InvariantAtBoot : Prop :=
  ∀ (loadOk : Bool) (glyphs : Vector Byte 80) (prog : List Byte) (s : State),
    State.boot loadOk glyphs prog = .ready s → s.Inv

/-- R38 (the spec's inference) with what it rests on: every step keeps the invariant. -/
def Obligations.InvariantKeptByStep : Prop :=
  ∀ s t : State, s.Inv → step s = .next t → t.Inv

/-! ### The cycle (`40_control_flow.md` R100 to R102, `60_exceptions.md` R230 to R234) -/

/-- R100: when the two bytes at PC decode, the step in mode RUN executes that instruction, then lets the
timers decay unless the instruction faulted, and the cycle's inputs are used. The place of the fault and
of quit is the spec's decision D9 and D13; the list of inputs is the model's (log 1). -/
def Obligations.StepRunsDecodedInstruction : Prop :=
  ∀ (s : State) (i : Instr), s.mode = .run → s.input.quit = false → s.pc.toNat + 1 ≤ 0xFFF →
    decode [s.mem.read s.pc.toNat, s.mem.read (s.pc.toNat + 1)] = .ok (i, []) →
    step s = match exec i s.beginCycle with
      | .next t => .next (if t.mode = .faulted then t.endCycle else (t.timerGate s.input).endCycle)
      | .fault r => .fault r
      | .refused r => .refused r

/-- R230, R232, R263: no state stops the step: a fatal condition is a next state, as the spec's decision
D26 has it (log 3). -/
def Obligations.StepAnswersInEveryState : Prop :=
  ∀ s : State, ∃ t, step s = .next t

/-- R263: a cycle that starts in HALTED or FAULTED changes nothing. The spec's decision D9 and D13. -/
def Obligations.TerminalModesChangeNothing : Prop :=
  ∀ s : State, s.mode = .halted ∨ s.mode = .faulted → step s = .next s

/-- R216: quit, in mode RUN or AWAIT_KEY, sets mode HALTED and does nothing else to the CORE. The spec's
decision D13; the list of inputs is the model's (log 1). -/
def Obligations.QuitOnlyHalts : Prop :=
  ∀ s : State, s.mode = .run ∨ s.mode = .awaitKey → s.input.quit = true →
    step s = .next { s with
      mode := .halted
      fbUpdate := false, inputs := s.inputs.tail, cycle := s.cycle + 1 }

/-- R101: a fetch at PC = 0xFFF or above faults with no word and the first out-of-range address; below
that it reads the big-endian word at PC. Checking at the fetch is the spec's decision D6. -/
def Obligations.FetchChecksRange : Prop :=
  (∀ s : State, s.pc.toNat + 1 > 0xFFF → s.fetch = none) ∧
  (∀ s : State, s.pc.toNat + 1 ≤ 0xFFF → ∃ w, s.fetch = some w ∧
    w.toNat = (s.mem.read s.pc.toNat).toNat * 256 + (s.mem.read (s.pc.toNat + 1)).toNat) ∧
  (∀ s : State, s.mode = .run → s.input.quit = false → s.pc.toNat + 1 > 0xFFF →
    step s = .next (s.afterFault
      ⟨.fetchOutOfRange, s.pc, none, some (BitVec.ofNat 13 (max s.pc.toNat 0x1000))⟩))

/-- R74: an unknown word faults at its PC with the raw word. No decay in that cycle is the spec's
decision D9. -/
def Obligations.UnknownWordFaults : Prop :=
  ∀ (s : State) (w : Word), s.mode = .run → s.input.quit = false → s.fetch = some w →
    decodeWord w = none →
    step s = .next (s.afterFault ⟨.unknownInstruction, s.pc, some w, none⟩)

/-- R232: a cycle that enters FAULTED changes the mode and the fault record and nothing else of the CORE;
the record holds the faulting PC, the fetched word (absent for code 1) and an address or value exactly
for codes 1, 5 and 6. The spec's decisions D8, D9 and D26. -/
def Obligations.FaultsArePrecise : Prop :=
  ∀ s t : State, step s = .next t → s.mode ≠ .faulted → t.mode = .faulted →
    ∃ r : FaultRecord, t = s.afterFault r ∧ r.pc = s.pc ∧ r.word = s.fetch ∧
      (r.word = none ↔ r.code.number = 1) ∧
      (r.info.isSome = true ↔ r.code.number = 1 ∨ r.code.number = 5 ∨ r.code.number = 6)

/-- R231, R233: a cycle in mode RUN that does not quit enters FAULTED exactly when a fault is due, with
that record, the checks taken in the order fetch range, decode, the instruction's own. The order is the
spec's decision D27. -/
def Obligations.FaultRaisedExactlyWhenDue : Prop :=
  ∀ s t : State, s.mode = .run → s.input.quit = false → step s = .next t →
    (t.mode = .faulted ↔ s.faultDue.isSome = true) ∧
    (∀ r, s.faultDue = some r → t.faultRecord = some r)

/-! ### Rules about the whole machine -/

/-- R207, R211, R214: in a cycle that neither faults nor quits, the timers end as the gate leaves what
the instruction left; only `load DT,Vx` and `load ST,Vx` write them before the gate. `tick` as an input
is the spec's decision D14. That `last_decay` takes the cycle's input `now`, in the model's unit of time, is
the model's choice (log 5). -/
def Obligations.TimersMoveOnlyByGateAndLoads : Prop :=
  ∀ s t : State, s.mode.terminal = false → s.input.quit = false → step s = .next t →
    t.mode ≠ .faulted →
    (let ins := if s.mode = .run then s.nextInstr else none
     let dt := match ins with
       | some (.loadDT x) => (s.reg x).toNat
       | _ => s.dt.toNat
     let st := match ins with
       | some (.loadST x) => (s.reg x).toNat
       | _ => s.st.toNat
     (s.input.tick = true → t.dt.toNat = dt - 1 ∧ t.st.toNat = st - 1 ∧ t.lastDecay = s.input.now) ∧
     (s.input.tick = false → t.dt.toNat = dt ∧ t.st.toNat = st ∧ t.lastDecay = s.lastDecay))

/-- R213 (the spec's inference): `tone_active = (ST != 0)` at the end of every cycle that starts so. -/
def Obligations.ToneFollowsSoundTimer : Prop :=
  ∀ s t : State, s.toneActive = (s.st != 0) → step s = .next t → t.toneActive = (t.st != 0)

/-- R212 (the spec's inference): while the host keeps its duty, a cycle that comes less than 1/60 s after
the last decay does not move a timer that no instruction writes. -/
def Obligations.NoDecayBeforePeriod : Prop :=
  ∀ s t : State, HostKeepsGate s →
    Config.timerHz * s.input.now < Config.timeUnitsPerSecond + Config.timerHz * s.lastDecay →
    step s = .next t →
    t.lastDecay = s.lastDecay ∧
    ((∀ x, s.nextInstr ≠ some (.loadDT x)) → t.dt = s.dt) ∧
    ((∀ x, s.nextInstr ≠ some (.loadST x)) → t.st = s.st)

/-- R212 (the spec's inference): while the host keeps its duty, `n` decays take at least `n/60` seconds
of wall time. Time in nanoseconds is the model's choice (log 5). -/
def Obligations.DecaysPacedBySixtyHertz : Prop :=
  ∀ (s t : State) (n : Nat), GatedRun s t n →
    n * Config.timeUnitsPerSecond + Config.timerHz * s.lastDecay ≤ Config.timerHz * t.lastDecay

/-- R29: the framebuffer changes only in a cycle in mode RUN, without quit, that executes `clear-display` or
`draw`. -/
def Obligations.FramebufferWrittenOnlyByDisplay : Prop :=
  ∀ (s t : State) (row : Fin 32) (col : Fin 64), step s = .next t →
    t.pixel row col ≠ s.pixel row col →
    s.mode = .run ∧ s.input.quit = false ∧
      (s.nextInstr = some .clearDisplay ∨ ∃ x y n, s.nextInstr = some (.draw x y n))

/-- R180: after a cycle that started in mode RUN or AWAIT_KEY, the render pulse is there exactly when the
cycle executed `clear-display` or a `draw` that did not fault. The spec's decision D17. -/
def Obligations.RenderPulsedOncePerDisplayInstruction : Prop :=
  ∀ s t : State, s.mode.terminal = false → step s = .next t →
    (t.fbUpdate = true ↔
      s.mode = .run ∧ s.input.quit = false ∧ t.mode ≠ .faulted ∧
      (s.nextInstr = some .clearDisplay ∨ ∃ x y n, s.nextInstr = some (.draw x y n)))

/-- R51, R57: memory changes only where `store-bcd` or `store-regs` stores. -/
def Obligations.MemoryWrittenOnlyByStores : Prop :=
  ∀ (s t : State) (a : Nat), s.mem.wf → step s = .next t → t.mem.read a ≠ s.mem.read a →
    (∃ x, s.nextInstr = some (.storeBcd x) ∧ s.i.toNat ≤ a ∧ a ≤ s.i.toNat + 2) ∨
    (∃ x, s.nextInstr = some (.storeRegs x) ∧ s.i.toNat ≤ a ∧ a ≤ s.i.toNat + x.val)

/-- R107, R25: SP changes only by `call` and `return`, by one; a slot changes only by `call`, the one at
the new SP, and slot 0 never. That `return` keeps the slot is the spec's decision D16. -/
def Obligations.StackMovedOnlyByCallAndReturn : Prop :=
  ∀ s t : State, step s = .next t →
    (t.sp ≠ s.sp →
      (∃ a, s.nextInstr = some (.call a) ∧ t.sp.toNat = s.sp.toNat + 1) ∨
      (s.nextInstr = some .ret ∧ t.sp.toNat + 1 = s.sp.toNat)) ∧
    (∀ k, t.stackAt k ≠ s.stackAt k →
      k ≠ 0 ∧ k = t.sp ∧ (∃ a, s.nextInstr = some (.call a)) ∧ t.stackAt k = s.pc.setWidth 12)

/-- R24: I changes only by its three writers. -/
def Obligations.IndexWrittenOnlyByThree : Prop :=
  ∀ s t : State, step s = .next t → t.i ≠ s.i →
    (∃ a, s.nextInstr = some (.loadI a)) ∨ (∃ x, s.nextInstr = some (.addI x)) ∨
    (∃ x, s.nextInstr = some (.loadFont x))

/-- R20, R21: in a cycle a register changes only if the instruction names it as its destination, if it is
VF and the instruction is one of the six that set a flag, or if it is the destination of a key wait. -/
def Obligations.RegistersWrittenOnlyAsDestinationOrFlag : Prop :=
  ∀ (s t : State) (r : VReg), step s = .next t → t.reg r ≠ s.reg r →
    (s.mode = .run ∧ ∃ i, s.nextInstr = some i ∧
      (i.namesAsDest r = true ∨ (r = VF ∧ i.setsFlag = true))) ∨
    (s.mode = .awaitKey ∧ r = s.awaitX)

/-- R236: a key edge affects only the key skips and `load Vx,K`: a cycle in mode RUN that fetches any
other instruction, or none, ends the same whatever the edge. The spec's decision D23. -/
def Obligations.KeyEdgeReachesOnlyKeyInstructions : Prop :=
  ∀ (s : State) (inp : CycleInput) (rest : List CycleInput) (edge : Option Nibble),
    s.inputs = inp :: rest → s.mode = .run → (∀ i, s.nextInstr = some i → i.readsKey = false) →
    step { s with inputs := { inp with keyEdge := edge } :: rest } = step s

/-- R236: a tick affects only the timers, and through ST the tone. The spec's decision D23. -/
def Obligations.TickReachesOnlyTimers : Prop :=
  ∀ (s t u : State) (inp : CycleInput) (rest : List CycleInput) (tick : Bool) (now : Nat),
    s.mode.terminal = false → s.inputs = inp :: rest → step s = .next t →
    step { s with inputs := { inp with tick := tick, now := now } :: rest } = .next u →
    u = { t with dt := u.dt, st := u.st, toneActive := u.toneActive, lastDecay := u.lastDecay }

/-- R146: the random byte reaches only `random`. The byte as an input is the spec's decision D24. -/
def Obligations.RandomByteReachesOnlyRandom : Prop :=
  ∀ (s : State) (inp : CycleInput) (rest : List CycleInput) (byte : Byte),
    s.mode.terminal = false → s.inputs = inp :: rest →
    (∀ i, s.nextInstr = some i → i.readsRand = false) →
    step { s with inputs := { inp with rand := byte } :: rest } = step s

/-- R111: a `call` followed by a `return` as the first instruction at its target resumes after the call
with SP as it was. The spec's inference from R108 and R110. -/
def Obligations.CallReturnRoundTrip : Prop :=
  ∀ (s t u : State) (nnn : Addr), s.mode = .run → s.input.quit = false →
    s.nextInstr = some (.call nnn) → s.sp ≠ 15 → step s = .next t →
    t.input.quit = false → t.nextInstr = some .ret → step t = .next u →
    u.mode = .run ∧ u.pc.toNat = s.pc.toNat + 2 ∧ u.sp = s.sp

/-- R171: `store-regs Vx` and then `read-regs Vx` with the same I and no write to memory between them
puts the values stored back into V0..Vx. The spec's inference from R168 and R170. -/
def Obligations.StoreThenReadRestoresRegisters : Prop :=
  ∀ (x : VReg) (s t t' u : State), s.mem.wf → s.i.toNat + x.val ≤ 0xFFF →
    exec (.storeRegs x) s = .next t → t'.mem = t.mem → t'.i = t.i →
    exec (.readRegs x) t' = .next u → ∀ r, r ≤ x → u.reg r = s.reg r

/-- R265, R62: the next fetch sees the bytes a `store-regs` has just written. The spec's inference from
R59 and R264. -/
def Obligations.StoreIsSeenByNextFetch : Prop :=
  ∀ (x : VReg) (s t : State), s.mem.wf → s.i.toNat + x.val ≤ 0xFFF →
    exec (.storeRegs x) s = .next t →
    ∀ k : VReg, ∀ k' : VReg, k'.val = k.val + 1 → k' ≤ x → t.pc.toNat = s.i.toNat + k.val →
      t.fetch = some (wordOfBytes (s.reg k) (s.reg k'))

/-! ### Control flow (`40_control_flow.md`) -/

/-- R108: back to the address popped plus 2, or STACK_UNDERFLOW with SP and PC kept. The encoding is the
spec's decision D33, the code and record D26. -/
def Obligations.ReturnResumesAfterCall : Prop :=
  ∀ s : State,
    EncodedAs .ret 0x00EE ∧
    (s.sp ≠ 0 → ∃ t, exec .ret s = .next t ∧ t.pc.toNat = (s.stackAt s.sp).toNat + 2 ∧
      t.sp.toNat + 1 = s.sp.toNat ∧ Keeps { sp := true } s t) ∧
    (s.sp = 0 → exec .ret s = .next { s with
      mode := .faulted
      faultRecord := some ⟨.stackUnderflow, s.pc, some s.currentWord, none⟩ })

/-- R109, R118: the target, and the exact sum of V0 and nnn. That the sum does not wrap is the spec's
decision D6, the encodings D33. -/
def Obligations.JumpsGoToTarget : Prop :=
  ∀ (nnn : Addr) (s : State),
    EncodedAs (.jump nnn) (0x1000 + nnn.toNat) ∧
    EncodedAs (.jumpV0 nnn) (0xB000 + nnn.toNat) ∧
    (∃ t, exec (.jump nnn) s = .next t ∧ t.pc.toNat = nnn.toNat ∧ Keeps {} s t) ∧
    (∃ t, exec (.jumpV0 nnn) s = .next t ∧ t.pc.toNat = (s.reg 0).toNat + nnn.toNat ∧ Keeps {} s t)

/-- R110: the address of the call is pushed, or STACK_OVERFLOW with nothing pushed. A `call` that was
fetched has PC at most 0xFFE. The encoding is the spec's decision D33, the depth of 15 D20. -/
def Obligations.CallPushesOwnAddress : Prop :=
  ∀ (nnn : Addr) (s : State), s.pc.toNat ≤ 0xFFE →
    EncodedAs (.call nnn) (0x2000 + nnn.toNat) ∧
    (s.sp ≠ 15 → ∃ t, exec (.call nnn) s = .next t ∧ t.pc.toNat = nnn.toNat ∧
      t.sp.toNat = s.sp.toNat + 1 ∧ (t.stackAt t.sp).toNat = s.pc.toNat ∧
      Keeps { sp := true, slots := (· == t.sp) } s t) ∧
    (s.sp = 15 → exec (.call nnn) s = .next { s with
      mode := .faulted
      faultRecord := some ⟨.stackOverflow, s.pc, some s.currentWord, none⟩ })

/-- R112, R113, R114, R115: the four register skips. The encodings are the spec's decision D33, the
ignored `n` of the last two D5. -/
def Obligations.RegisterSkipsTestTheirCondition : Prop :=
  ∀ (x y : VReg) (nn : Byte) (s : State),
    EncodedAs (.skipEqImm x nn) (0x3000 + x.val * 256 + nn.toNat) ∧
    EncodedAs (.skipNeImm x nn) (0x4000 + x.val * 256 + nn.toNat) ∧
    (∀ n, n < 16 → EncodedAs (.skipEqReg x y) (0x5000 + x.val * 256 + y.val * 16 + n)) ∧
    (∀ n, n < 16 → EncodedAs (.skipNeReg x y) (0x9000 + x.val * 256 + y.val * 16 + n)) ∧
    (∃ t, exec (.skipEqImm x nn) s = .next t ∧
      t.pc = (if (s.reg x).toNat = nn.toNat then s.pc + 4 else s.pc + 2) ∧ Keeps {} s t) ∧
    (∃ t, exec (.skipNeImm x nn) s = .next t ∧
      t.pc = (if (s.reg x).toNat = nn.toNat then s.pc + 2 else s.pc + 4) ∧ Keeps {} s t) ∧
    (∃ t, exec (.skipEqReg x y) s = .next t ∧
      t.pc = (if (s.reg x).toNat = (s.reg y).toNat then s.pc + 4 else s.pc + 2) ∧ Keeps {} s t) ∧
    (∃ t, exec (.skipNeReg x y) s = .next t ∧
      t.pc = (if (s.reg x).toNat = (s.reg y).toNat then s.pc + 2 else s.pc + 4) ∧ Keeps {} s t)

/-- R202, R203: the comparison is on all 8 bits of V[x]; with no edge the first never skips and the
second always does. The 8-bit comparison is the spec's decision D31, the encodings D33. -/
def Obligations.KeySkipsTestTheEdge : Prop :=
  ∀ (x : VReg) (s : State),
    EncodedAs (.skipKeyPressed x) (0xE09E + x.val * 256) ∧
    EncodedAs (.skipKeyNotPressed x) (0xE0A1 + x.val * 256) ∧
    (∃ t, exec (.skipKeyPressed x) s = .next t ∧
      t.pc = (if ∃ k, s.input.keyEdge = some k ∧ k.toNat = (s.reg x).toNat
        then s.pc + 4 else s.pc + 2) ∧ Keeps {} s t) ∧
    (∃ t, exec (.skipKeyNotPressed x) s = .next t ∧
      t.pc = (if ∃ k, s.input.keyEdge = some k ∧ k.toNat = (s.reg x).toNat
        then s.pc + 2 else s.pc + 4) ∧ Keeps {} s t)

/-! ### Loads and the ALU (`41_register_alu.md`) -/

/-- R131, R132: the immediate goes to Vx, or is added with the sum wrapped and no flag written. Both
encodings are fixed by the document (R81). -/
def Obligations.ImmediateLoadAndAdd : Prop :=
  ∀ (x : VReg) (nn : Byte) (s : State),
    EncodedAs (.loadImm x nn) (0x6000 + x.val * 256 + nn.toNat) ∧
    EncodedAs (.addImm x nn) (0x7000 + x.val * 256 + nn.toNat) ∧
    (∃ t, exec (.loadImm x nn) s = .next t ∧ t.reg x = nn ∧ t.pc = s.pc + 2 ∧
      Keeps { regs := (· == x) } s t) ∧
    (∃ t, exec (.addImm x nn) s = .next t ∧
      (t.reg x).toNat = ((s.reg x).toNat + nn.toNat) % 256 ∧ t.pc = s.pc + 2 ∧
      Keeps { regs := (· == x) } s t)

/-- R133, R206: a register load writes Vx and nothing else. The encodings are the spec's decision D33. -/
def Obligations.RegisterLoads : Prop :=
  ∀ (x y : VReg) (s : State),
    EncodedAs (.loadReg x y) (0x8000 + x.val * 256 + y.val * 16) ∧
    EncodedAs (.loadFromDT x) (0xF007 + x.val * 256) ∧
    (∃ t, exec (.loadReg x y) s = .next t ∧ t.reg x = s.reg y ∧ t.pc = s.pc + 2 ∧
      Keeps { regs := (· == x) } s t) ∧
    (∃ t, exec (.loadFromDT x) s = .next t ∧ t.reg x = s.dt ∧ t.pc = s.pc + 2 ∧
      Keeps { regs := (· == x) } s t)

/-- R134, R135, R136: bit by bit, and VF is not written as a flag. The encodings are the spec's decision
D33. -/
def Obligations.BitwiseOperations : Prop :=
  ∀ (x y : VReg) (s : State),
    EncodedAs (.orReg x y) (0x8001 + x.val * 256 + y.val * 16) ∧
    EncodedAs (.andReg x y) (0x8002 + x.val * 256 + y.val * 16) ∧
    EncodedAs (.xorReg x y) (0x8003 + x.val * 256 + y.val * 16) ∧
    (∃ t, exec (.orReg x y) s = .next t ∧
      (∀ k, (t.reg x).getLsbD k = ((s.reg x).getLsbD k || (s.reg y).getLsbD k)) ∧
      t.pc = s.pc + 2 ∧ Keeps { regs := (· == x) } s t) ∧
    (∃ t, exec (.andReg x y) s = .next t ∧
      (∀ k, (t.reg x).getLsbD k = ((s.reg x).getLsbD k && (s.reg y).getLsbD k)) ∧
      t.pc = s.pc + 2 ∧ Keeps { regs := (· == x) } s t) ∧
    (∃ t, exec (.xorReg x y) s = .next t ∧
      (∀ k, (t.reg x).getLsbD k = ((s.reg x).getLsbD k ^^ (s.reg y).getLsbD k)) ∧
      t.pc = s.pc + 2 ∧ Keeps { regs := (· == x) } s t)

/-- R137, with R142 for x = F: the sum wraps, VF is the carry, and with x = F the sum is what VF holds,
by the spec's decision D2 (log 7). The encoding is D33. -/
def Obligations.AddSetsCarry : Prop :=
  ∀ (x y : VReg) (s : State),
    EncodedAs (.addReg x y) (0x8004 + x.val * 256 + y.val * 16) ∧
    ∃ t, exec (.addReg x y) s = .next t ∧
      (t.reg x).toNat = ((s.reg x).toNat + (s.reg y).toNat) % 256 ∧
      (x ≠ VF → t.reg VF = if (s.reg x).toNat + (s.reg y).toNat > 255 then 1 else 0) ∧
      t.pc = s.pc + 2 ∧ Keeps { regs := fun r => r == x || r == VF } s t

/-- R138, R140: the wrapped difference, VF is no-borrow; with x = F the difference is what VF holds, by
the spec's decision D2 (log 7). The encodings are D33. -/
def Obligations.SubtractionsSetNoBorrow : Prop :=
  ∀ (x y : VReg) (s : State),
    EncodedAs (.subReg x y) (0x8005 + x.val * 256 + y.val * 16) ∧
    EncodedAs (.subnReg x y) (0x8007 + x.val * 256 + y.val * 16) ∧
    (∃ t, exec (.subReg x y) s = .next t ∧
      (t.reg x).toNat = ((s.reg x).toNat + 256 - (s.reg y).toNat) % 256 ∧
      (x ≠ VF → t.reg VF = if (s.reg x).toNat ≥ (s.reg y).toNat then 1 else 0) ∧
      t.pc = s.pc + 2 ∧ Keeps { regs := fun r => r == x || r == VF } s t) ∧
    (∃ t, exec (.subnReg x y) s = .next t ∧
      (t.reg x).toNat = ((s.reg y).toNat + 256 - (s.reg x).toNat) % 256 ∧
      (x ≠ VF → t.reg VF = if (s.reg y).toNat ≥ (s.reg x).toNat then 1 else 0) ∧
      t.pc = s.pc + 2 ∧ Keeps { regs := fun r => r == x || r == VF } s t)

/-- R139, R141: VF is the bit shifted out of V[x], `y` is ignored; with x = F the result is what VF
holds, by the spec's decision D2 (log 7). The encodings are D33. -/
def Obligations.ShiftsSetBitShiftedOut : Prop :=
  ∀ (x : VReg) (s : State),
    (∀ y, y < 16 → EncodedAs (.shr x) (0x8006 + x.val * 256 + y * 16)) ∧
    (∀ y, y < 16 → EncodedAs (.shl x) (0x800E + x.val * 256 + y * 16)) ∧
    (∃ t, exec (.shr x) s = .next t ∧ (t.reg x).toNat = (s.reg x).toNat / 2 ∧
      (x ≠ VF → (t.reg VF).toNat = (s.reg x).toNat % 2) ∧
      t.pc = s.pc + 2 ∧ Keeps { regs := fun r => r == x || r == VF } s t) ∧
    (∃ t, exec (.shl x) s = .next t ∧ (t.reg x).toNat = (s.reg x).toNat * 2 % 256 ∧
      (x ≠ VF → (t.reg VF).toNat = (s.reg x).toNat / 128) ∧
      t.pc = s.pc + 2 ∧ Keeps { regs := fun r => r == x || r == VF } s t)

/-- R146, for every value of the cycle's random byte (the spec's decision D24; the encoding is D33). -/
def Obligations.RandomMasksTheByte : Prop :=
  ∀ (x : VReg) (nn : Byte) (s : State),
    EncodedAs (.random x nn) (0xC000 + x.val * 256 + nn.toNat) ∧
    ∃ t, exec (.random x nn) s = .next t ∧
      (∀ k, (t.reg x).getLsbD k = (s.input.rand.getLsbD k && nn.getLsbD k)) ∧ t.pc = s.pc + 2 ∧
      Keeps { regs := (· == x) } s t

/-! ### Index register and memory (`42_index_memory.md`) -/

/-- R160: I takes the 12-bit address, VF and every other register stay. The encoding is fixed by the
document (R81). -/
def Obligations.LoadIndexImmediate : Prop :=
  ∀ (nnn : Addr) (s : State),
    EncodedAs (.loadI nnn) (0xA000 + nnn.toNat) ∧
    ∃ t, exec (.loadI nnn) s = .next t ∧ t.i = nnn ∧ t.pc = s.pc + 2 ∧ Keeps { index := true } s t

/-- R164, R162: V[x] * 5 with no masking; the exact sum, which faults above 0xFFF with I unchanged. The
fault at the add is the spec's decision D7, the encodings D33. -/
def Obligations.FontAddressAndIndexAdd : Prop :=
  ∀ (x : VReg) (s : State),
    EncodedAs (.loadFont x) (0xF029 + x.val * 256) ∧
    EncodedAs (.addI x) (0xF01E + x.val * 256) ∧
    (∃ t, exec (.loadFont x) s = .next t ∧ t.i.toNat = (s.reg x).toNat * 5 ∧ t.pc = s.pc + 2 ∧
      Keeps { index := true } s t) ∧
    (s.i.toNat + (s.reg x).toNat ≤ 0xFFF → ∃ t, exec (.addI x) s = .next t ∧
      t.i.toNat = s.i.toNat + (s.reg x).toNat ∧ t.pc = s.pc + 2 ∧ Keeps { index := true } s t) ∧
    (s.i.toNat + (s.reg x).toNat > 0xFFF → exec (.addI x) s = .next { s with
      mode := .faulted
      faultRecord := some ⟨.indexOutOfRange, s.pc, some s.currentWord,
        some (BitVec.ofNat 13 (s.i.toNat + (s.reg x).toNat))⟩ })

/-- R166 in range: the three digits at I, I + 1, I + 2, and no other byte. The encoding is the spec's
decision D33. -/
def Obligations.StoreBcdWritesDigits : Prop :=
  ∀ (x : VReg) (s : State), s.mem.wf → s.i.toNat + 2 ≤ 0xFFF →
    EncodedAs (.storeBcd x) (0xF033 + x.val * 256) ∧
    ∃ t, exec (.storeBcd x) s = .next t ∧
      (t.mem.read s.i.toNat).toNat = (s.reg x).toNat / 100 ∧
      (t.mem.read (s.i.toNat + 1)).toNat = (s.reg x).toNat / 10 % 10 ∧
      (t.mem.read (s.i.toNat + 2)).toNat = (s.reg x).toNat % 10 ∧
      t.pc = s.pc + 2 ∧ Keeps { mem := inBytes s.i.toNat 3 } s t

/-- R168 in range: V0..Vx at I..I+x, and no other byte; I stays. The encoding is the spec's decision D33.
-/
def Obligations.StoreRegsWritesRegisters : Prop :=
  ∀ (x : VReg) (s : State), s.mem.wf → s.i.toNat + x.val ≤ 0xFFF →
    EncodedAs (.storeRegs x) (0xF055 + x.val * 256) ∧
    ∃ t, exec (.storeRegs x) s = .next t ∧
      (∀ k, k ≤ x → t.mem.read (s.i.toNat + k.val) = s.reg k) ∧
      t.pc = s.pc + 2 ∧ Keeps { mem := inBytes s.i.toNat (x.val + 1) } s t

/-- R170 in range: V0..Vx from I..I+x, and no other register; I stays. The encoding is the spec's
decision D33. -/
def Obligations.ReadRegsLoadsRegisters : Prop :=
  ∀ (x : VReg) (s : State), s.i.toNat + x.val ≤ 0xFFF →
    EncodedAs (.readRegs x) (0xF065 + x.val * 256) ∧
    ∃ t, exec (.readRegs x) s = .next t ∧
      (∀ k, k ≤ x → t.reg k = s.mem.read (s.i.toNat + k.val)) ∧
      t.pc = s.pc + 2 ∧ Keeps { regs := fun r => decide (r ≤ x) } s t

/-- R52, R169: a memory instruction whose range passes 0xFFF faults with address 0x1000 and does nothing.
Checking the whole range first is the spec's decision D8. -/
def Obligations.MemoryInstructionsFaultOutOfRange : Prop :=
  ∀ (i : Instr) (count : Nat) (x y : VReg) (s : State),
    (i = .draw x y count ∨ (i = .storeBcd x ∧ count = 3) ∨ (i = .storeRegs x ∧ count = x.val + 1) ∨
      (i = .readRegs x ∧ count = x.val + 1)) →
    s.i.toNat + count - 1 > 0xFFF →
    exec i s = .next { s with
      mode := .faulted
      faultRecord := some ⟨.memOutOfRange, s.pc, some s.currentWord, some 0x1000⟩ }

/-! ### Display (`43_display.md`) -/

/-- R181: every pixel off, the renderer signalled, VF and everything else kept. The encoding is the
spec's decision D33, the signal D17. -/
def Obligations.ClearDisplayClearsEveryPixel : Prop :=
  ∀ s : State,
    EncodedAs .clearDisplay 0x00E0 ∧
    ∃ t, exec .clearDisplay s = .next t ∧ (∀ row col, t.pixel row col = false) ∧
      t.fbUpdate = true ∧ t.pc = s.pc + 2 ∧ Keeps { display := true } s t

/-- R184, R185, R186: in range, `draw` inverts exactly the pixels the sprite's 1 bits fall on, each on
its own wrapped, and VF says whether one of them was lit. Coordinates from before VF is reset are the
spec's decision D3, the signal D17, the encoding D33. -/
def Obligations.DrawXorsTheWrappedSprite : Prop :=
  ∀ (x y : VReg) (n : Nat) (s : State), n < 16 → s.i.toNat + n ≤ 0x1000 →
    EncodedAs (.draw x y n) (0xD000 + x.val * 256 + y.val * 16 + n) ∧
    ∃ t, exec (.draw x y n) s = .next t ∧
      (∀ row col, t.pixel row col = (s.pixel row col ^^ s.spriteCovers x y n row col)) ∧
      t.reg VF = (if ∃ row col, s.spriteCovers x y n row col = true ∧ s.pixel row col = true
        then 1 else 0) ∧
      t.fbUpdate = true ∧ t.pc = s.pc + 2 ∧
      Keeps { regs := (· == VF), display := true } s t

/-- R184 and R186 for two draws: a second identical draw with the same I, coordinates, sprite bytes and
framebuffer restores the framebuffer. Its VF is 1 exactly when one of the sprite's 1 bits falls on a pixel
that was off before the first draw; so, where all of them were off, as in the document's example of R188,
exactly when the sprite has a 1 bit. R188's last sentence leaves that condition out; the spec has no ruling on
it, and following R184 there is the model's reading (log 15). -/
def Obligations.SecondDrawRestoresFramebuffer : Prop :=
  ∀ (x y : VReg) (n : Nat) (s t t' u : State), n < 16 → s.i.toNat + n ≤ 0x1000 →
    exec (.draw x y n) s = .next t →
    t'.fb = t.fb → t'.i = s.i → t'.reg x = s.reg x → t'.reg y = s.reg y →
    (∀ k, k < n → t'.mem.read (s.i.toNat + k) = s.mem.read (s.i.toNat + k)) →
    exec (.draw x y n) t' = .next u →
    u.fb = s.fb ∧
    u.reg VF = (if ∃ row col, s.spriteCovers x y n row col = true ∧ s.pixel row col = false
      then 1 else 0) ∧
    ((∀ row col, s.spriteCovers x y n row col = true → s.pixel row col = false) →
      (u.reg VF = 1 ↔ ∃ k, k < n ∧ s.mem.read (s.i.toNat + k) ≠ 0))

/-! ### Key wait and timers (`44_timers_input.md`) -/

/-- R204: with an edge in its own cycle `load Vx,K` takes it, else the CORE waits at the instruction.
Taking the edge of its own cycle is the spec's decision D12, the encoding D33. -/
def Obligations.KeyWaitTakesEdgeOrWaits : Prop :=
  ∀ (x : VReg) (s : State),
    EncodedAs (.waitKey x) (0xF00A + x.val * 256) ∧
    (∀ k, s.input.keyEdge = some k → ∃ t, exec (.waitKey x) s = .next t ∧
      (t.reg x).toNat = k.toNat ∧ t.pc = s.pc + 2 ∧ Keeps { regs := (· == x) } s t) ∧
    (s.input.keyEdge = none → ∃ t, exec (.waitKey x) s = .next t ∧ t.mode = .awaitKey ∧
      t.awaitX = x ∧ t.pc = s.pc ∧ Keeps { mode := true } s t)

/-- R205: a cycle in AWAIT_KEY without quit: an edge of any value goes to V[await_x], PC moves past the
instruction and the mode is RUN; without an edge the wait goes on. The timer gate runs in both. Quit
comes first, and then neither happens (the spec's decision D13). -/
def Obligations.WaitingCycleTakesEdge : Prop :=
  (∀ s : State, s.mode = .awaitKey → s.input.quit = true →
    ∃ t, step s = .next t ∧ t.mode = .halted ∧ t.pc = s.pc ∧ (∀ r, t.reg r = s.reg r) ∧
      t.dt = s.dt ∧ t.st = s.st) ∧
  ∀ s : State, s.mode = .awaitKey → s.input.quit = false →
    ∃ t, step s = .next t ∧
      (∀ k, s.input.keyEdge = some k → t.mode = .run ∧ t.pc = s.pc + 2 ∧
        (t.reg s.awaitX).toNat = k.toNat ∧ (∀ r, r ≠ s.awaitX → t.reg r = s.reg r)) ∧
      (s.input.keyEdge = none → t.mode = .awaitKey ∧ t.pc = s.pc ∧ ∀ r, t.reg r = s.reg r) ∧
      (s.input.tick = true → t.dt.toNat = s.dt.toNat - 1 ∧ t.st.toNat = s.st.toNat - 1) ∧
      (s.input.tick = false → t.dt = s.dt ∧ t.st = s.st) ∧
      t.awaitX = s.awaitX ∧ t.i = s.i ∧ t.sp = s.sp ∧ (∀ k, t.stackAt k = s.stackAt k) ∧
      (∀ row col, t.pixel row col = s.pixel row col) ∧ (∀ a, t.mem.read a = s.mem.read a) ∧
      t.faultRecord = s.faultRecord

/-- R208, R209: the timers take V[x], and the tone is on exactly when the value is not 0. `last_decay`
stays. The encodings are the spec's decision D33, the tone's rule D18. -/
def Obligations.TimerLoads : Prop :=
  ∀ (x : VReg) (s : State),
    EncodedAs (.loadDT x) (0xF015 + x.val * 256) ∧
    EncodedAs (.loadST x) (0xF018 + x.val * 256) ∧
    (∃ t, exec (.loadDT x) s = .next t ∧ t.dt = s.reg x ∧ t.pc = s.pc + 2 ∧
      Keeps { dt := true } s t) ∧
    (∃ t, exec (.loadST x) s = .next t ∧ t.st = s.reg x ∧
      (t.toneActive = true ↔ (s.reg x).toNat ≠ 0) ∧ t.pc = s.pc + 2 ∧ Keeps { st := true } s t)
end

