-- ==== Sys2Proof/Laws/Decode.lean ====
section
/-! SUPPORT. The fields of the words the encoder builds, and of a word taken apart
(`30_encoding.md` R71, R72). -/

namespace Sys2Proof

@[simp] theorem regOf_regBits (x : VReg) : regOf (regBits x) = x := by
  revert x; decide

@[simp] theorem regBits_regOf (b : Nibble) : regBits (regOf b) = b := by
  revert b; decide

theorem regBits_toNat (x : VReg) : (regBits x).toNat = x.val := by
  revert x; decide

/-- The top field of two bit vectors put together. -/
theorem extract_append_high {m n : Nat} (a : BitVec m) (b : BitVec n) :
    (a ++ b).extractLsb' n m = a := by
  ext k hk
  simp [BitVec.getLsbD_append, hk]

/-- A field that lies in the lower of two bit vectors put together. -/
theorem extract_append_low {m n : Nat} (a : BitVec m) (b : BitVec n) (lo len : Nat)
    (h : lo + len ≤ n) : (a ++ b).extractLsb' lo len = b.extractLsb' lo len := by
  ext k hk
  have : lo + k < n := by omega
  simp [BitVec.getLsbD_append, this]

theorem extract_whole {n : Nat} (b : BitVec n) : b.extractLsb' 0 n = b := by
  ext k hk
  simp

@[simp] theorem fieldFamily_wordNNN (f : Nibble) (a : Addr) : fieldFamily (wordNNN f a) = f :=
  extract_append_high f a

@[simp] theorem fieldNNN_wordNNN (f : Nibble) (a : Addr) : fieldNNN (wordNNN f a) = a :=
  (extract_append_low f a 0 12 (by decide)).trans (extract_whole a)

@[simp] theorem fieldFamily_wordXNN (f : Nibble) (x : VReg) (nn : Byte) :
    fieldFamily (wordXNN f x nn) = f :=
  extract_append_high f _

@[simp] theorem fieldX_wordXNN (f : Nibble) (x : VReg) (nn : Byte) : fieldX (wordXNN f x nn) = x := by
  have h : (wordXNN f x nn).extractLsb' 8 4 = regBits x :=
    (extract_append_low f (regBits x ++ nn) 8 4 (by decide)).trans (extract_append_high _ nn)
  simp [fieldX, h]

@[simp] theorem fieldNN_wordXNN (f : Nibble) (x : VReg) (nn : Byte) :
    fieldNN (wordXNN f x nn) = nn :=
  (extract_append_low f (regBits x ++ nn) 0 8 (by decide)).trans
    ((extract_append_low (regBits x) nn 0 8 (by decide)).trans (extract_whole nn))

@[simp] theorem fieldFamily_wordXYN (f : Nibble) (x y : VReg) (n : Nibble) :
    fieldFamily (wordXYN f x y n) = f :=
  extract_append_high f _

@[simp] theorem fieldX_wordXYN (f : Nibble) (x y : VReg) (n : Nibble) :
    fieldX (wordXYN f x y n) = x := by
  have h : (wordXYN f x y n).extractLsb' 8 4 = regBits x :=
    (extract_append_low f (regBits x ++ (regBits y ++ n : BitVec 8)) 8 4 (by decide)).trans
      (extract_append_high (regBits x) (regBits y ++ n : BitVec 8))
  simp [fieldX, h]

@[simp] theorem fieldY_wordXYN (f : Nibble) (x y : VReg) (n : Nibble) :
    fieldY (wordXYN f x y n) = y := by
  have h : (wordXYN f x y n).extractLsb' 4 4 = regBits y :=
    (extract_append_low f (regBits x ++ (regBits y ++ n : BitVec 8)) 4 4 (by decide)).trans
      ((extract_append_low (regBits x) (regBits y ++ n : BitVec 8) 4 4 (by decide)).trans
        (extract_append_high (regBits y) n))
  simp [fieldY, h]

@[simp] theorem fieldN_wordXYN (f : Nibble) (x y : VReg) (n : Nibble) :
    fieldN (wordXYN f x y n) = n :=
  (extract_append_low f (regBits x ++ (regBits y ++ n : BitVec 8)) 0 4 (by decide)).trans
    ((extract_append_low (regBits x) (regBits y ++ n : BitVec 8) 0 4 (by decide)).trans
      ((extract_append_low (regBits y) n 0 4 (by decide)).trans (extract_whole n)))

/-- A bit vector is its high part and its low part put together. -/
theorem split_append {m n : Nat} (w : BitVec (m + n)) :
    w.extractLsb' n m ++ w.extractLsb' 0 n = w := by
  refine BitVec.eq_of_getLsbD_eq fun k hk => ?_
  simp only [BitVec.getLsbD_append, BitVec.getLsbD_extractLsb']
  split
  · simp [*]
  · rw [show n + (k - n) = k by omega, decide_eq_true (by omega : k - n < m), Bool.true_and]

/-- A field of a field is a field. -/
theorem extract_extract {n : Nat} (w : BitVec n) (lo len lo' len' : Nat) (h : lo' + len' ≤ len) :
    (w.extractLsb' lo len).extractLsb' lo' len' = w.extractLsb' (lo + lo') len' := by
  refine BitVec.eq_of_getLsbD_eq fun k hk => ?_
  simp [hk, show lo' + k < len by omega, Nat.add_assoc]

/-- Every word is its four nibbles. -/
theorem word_eq_nibbles (w : Word) :
    w = wordXYN (fieldFamily w) (fieldX w) (fieldY w) (fieldN w) := by
  have h1 := split_append (m := 4) (n := 12) w
  have h2 := split_append (m := 4) (n := 8) (w.extractLsb' 0 12)
  have h3 := split_append (m := 4) (n := 4) (w.extractLsb' 0 8)
  rw [extract_extract _ _ _ _ _ (by decide), extract_extract _ _ _ _ _ (by decide)] at h2 h3
  simp only [wordXYN, fieldX, fieldY, fieldN, fieldFamily, regBits_regOf]
  exact (h1.symm.trans (by rw [← h2, ← h3]))

/-- `nn` is the two low nibbles. -/
theorem fieldNN_eq (w : Word) : fieldNN w = (regBits (fieldY w) ++ fieldN w : BitVec 8) := by
  conv_lhs => rw [word_eq_nibbles w]
  exact (extract_append_low _ _ 0 8 (by decide)).trans
    ((extract_append_low _ _ 0 8 (by decide)).trans (extract_whole _))

/-- `nnn` is the three low nibbles. -/
theorem fieldNNN_eq (w : Word) :
    fieldNNN w = (regBits (fieldX w) ++ (regBits (fieldY w) ++ fieldN w : BitVec 8) : BitVec 12) := by
  conv_lhs => rw [word_eq_nibbles w]
  exact (extract_append_low _ _ 0 12 (by decide)).trans (extract_whole _)

/-- A word is its family and its address operand. -/
theorem word_eq_wordNNN (w : Word) : w = wordNNN (fieldFamily w) (fieldNNN w) := by
  conv_lhs => rw [word_eq_nibbles w]
  rw [fieldNNN_eq]; rfl

/-- A word is its family, its x field and its low byte. -/
theorem word_eq_wordXNN (w : Word) : w = wordXNN (fieldFamily w) (fieldX w) (fieldNN w) := by
  conv_lhs => rw [word_eq_nibbles w]
  rw [fieldNN_eq]; rfl

theorem wordNNN_toNat (f : Nibble) (a : Addr) : (wordNNN f a).toNat = f.toNat * 4096 + a.toNat := by
  have := a.isLt
  rw [wordNNN, BitVec.toNat_append, Nat.shiftLeft_eq, ← Nat.shiftLeft_eq, ← Nat.shiftLeft_add_eq_or_of_lt this,
    Nat.shiftLeft_eq]

theorem wordXNN_toNat (f : Nibble) (x : VReg) (nn : Byte) :
    (wordXNN f x nn).toNat = f.toNat * 4096 + x.val * 256 + nn.toNat := by
  have h1 := nn.isLt
  have h : (regBits x ++ nn : BitVec 12).toNat = x.val * 256 + nn.toNat := by
    rw [BitVec.toNat_append, ← Nat.shiftLeft_add_eq_or_of_lt h1, Nat.shiftLeft_eq, regBits_toNat]
  rw [show wordXNN f x nn = wordNNN f (regBits x ++ nn) from rfl, wordNNN_toNat, h, Nat.add_assoc]

theorem wordXYN_toNat (f : Nibble) (x y : VReg) (n : Nibble) :
    (wordXYN f x y n).toNat = f.toNat * 4096 + x.val * 256 + y.val * 16 + n.toNat := by
  have h1 := n.isLt
  have h : (regBits y ++ n : BitVec 8).toNat = y.val * 16 + n.toNat := by
    rw [BitVec.toNat_append, ← Nat.shiftLeft_add_eq_or_of_lt h1, Nat.shiftLeft_eq, regBits_toNat]
  rw [show wordXYN f x y n = wordXNN f x (regBits y ++ n) from rfl, wordXNN_toNat, h, Nat.add_assoc,
    Nat.add_assoc, Nat.add_assoc]

/-- A number written as family and address is that word. -/
theorem ofNat_eq_wordNNN (f : Nibble) (a : Addr) :
    BitVec.ofNat 16 (f.toNat * 4096 + a.toNat) = wordNNN f a := by
  rw [← wordNNN_toNat, BitVec.ofNat_toNat, BitVec.setWidth_eq]

theorem ofNat_eq_wordXNN (f : Nibble) (x : VReg) (nn : Byte) :
    BitVec.ofNat 16 (f.toNat * 4096 + x.val * 256 + nn.toNat) = wordXNN f x nn := by
  rw [← wordXNN_toNat, BitVec.ofNat_toNat, BitVec.setWidth_eq]

theorem ofNat_eq_wordXYN (f : Nibble) (x y : VReg) (n : Nibble) :
    BitVec.ofNat 16 (f.toNat * 4096 + x.val * 256 + y.val * 16 + n.toNat) = wordXYN f x y n := by
  rw [← wordXYN_toNat, BitVec.ofNat_toNat, BitVec.setWidth_eq]

/-- The value of a word of two bytes (R53). -/
theorem wordOfBytes_toNat (hi lo : Byte) : (wordOfBytes hi lo).toNat = hi.toNat * 2 ^ 8 + lo.toNat := by
  rw [wordOfBytes, BitVec.toNat_append, ← Nat.shiftLeft_add_eq_or_of_lt lo.isLt, Nat.shiftLeft_eq]

/-- A word's two bytes put together again. -/
@[simp] theorem wordOfBytes_split (w : Word) :
    wordOfBytes (w.extractLsb' 8 8) (w.extractLsb' 0 8) = w :=
  split_append (m := 8) (n := 8) w

/-- A mask acts on the three parts of a word, family, x and low byte, each on its own. -/
theorem wordXNN_and (f f' x x' : Nibble) (b b' : Byte) :
    (f ++ (x ++ b : BitVec 12) : Word) &&& (f' ++ (x' ++ b' : BitVec 12)) =
      (f &&& f') ++ ((x &&& x') ++ (b &&& b') : BitVec 12) := by
  rw [← BitVec.and_append, ← BitVec.and_append]

/-! ### Which words decode to an instruction -/

/-- The words the opcode map gives an instruction, its ignored fields free (R78, R80). -/
def IsWordOf (w : Word) : Instr → Prop
  | .clearDisplay => w = 0x00E0
  | .ret => w = 0x00EE
  | .jump nnn => w = wordNNN 0x1 nnn
  | .call nnn => w = wordNNN 0x2 nnn
  | .skipEqImm x nn => w = wordXNN 0x3 x nn
  | .skipNeImm x nn => w = wordXNN 0x4 x nn
  | .skipEqReg x y => ∃ n, w = wordXYN 0x5 x y n
  | .loadImm x nn => w = wordXNN 0x6 x nn
  | .addImm x nn => w = wordXNN 0x7 x nn
  | .loadReg x y => w = wordXYN 0x8 x y 0x0
  | .orReg x y => w = wordXYN 0x8 x y 0x1
  | .andReg x y => w = wordXYN 0x8 x y 0x2
  | .xorReg x y => w = wordXYN 0x8 x y 0x3
  | .addReg x y => w = wordXYN 0x8 x y 0x4
  | .subReg x y => w = wordXYN 0x8 x y 0x5
  | .shr x => ∃ y, w = wordXYN 0x8 x y 0x6
  | .subnReg x y => w = wordXYN 0x8 x y 0x7
  | .shl x => ∃ y, w = wordXYN 0x8 x y 0xE
  | .skipNeReg x y => ∃ n, w = wordXYN 0x9 x y n
  | .loadI nnn => w = wordNNN 0xA nnn
  | .jumpV0 nnn => w = wordNNN 0xB nnn
  | .random x nn => w = wordXNN 0xC x nn
  | .draw x y n => ∃ k, n = BitVec.toNat k ∧ w = wordXYN 0xD x y k
  | .skipKeyPressed x => w = wordXNN 0xE x 0x9E
  | .skipKeyNotPressed x => w = wordXNN 0xE x 0xA1
  | .loadFromDT x => w = wordXNN 0xF x 0x07
  | .waitKey x => w = wordXNN 0xF x 0x0A
  | .loadDT x => w = wordXNN 0xF x 0x15
  | .loadST x => w = wordXNN 0xF x 0x18
  | .addI x => w = wordXNN 0xF x 0x1E
  | .loadFont x => w = wordXNN 0xF x 0x29
  | .storeBcd x => w = wordXNN 0xF x 0x33
  | .storeRegs x => w = wordXNN 0xF x 0x55
  | .readRegs x => w = wordXNN 0xF x 0x65

theorem nibble_cases (f : Nibble) : f = 0x0 ∨ f = 0x1 ∨ f = 0x2 ∨ f = 0x3 ∨ f = 0x4 ∨ f = 0x5 ∨
    f = 0x6 ∨ f = 0x7 ∨ f = 0x8 ∨ f = 0x9 ∨ f = 0xA ∨ f = 0xB ∨ f = 0xC ∨ f = 0xD ∨ f = 0xE ∨
    f = 0xF := by
  revert f; decide

/-- Decoding in terms of the words of the map. -/
theorem decodeWord_of_isWordOf {w : Word} {i : Instr} (h : IsWordOf w i) : decodeWord w = some i := by
  cases i
  case clearDisplay => cases h; decide
  case ret => cases h; decide
  case skipEqReg => obtain ⟨n, rfl⟩ := h; simp [decodeWord]
  case skipNeReg => obtain ⟨n, rfl⟩ := h; simp [decodeWord]
  case shr => obtain ⟨y, rfl⟩ := h; simp [decodeWord, decodeAlu]
  case shl => obtain ⟨y, rfl⟩ := h; simp [decodeWord, decodeAlu]
  case draw => obtain ⟨k, rfl, rfl⟩ := h; simp [decodeWord]
  all_goals cases h; simp [decodeWord, decodeAlu, decodeKey, decodeMisc]

theorem decodeAlu_isWordOf {w : Word} {i : Instr} (hf : fieldFamily w = 0x8)
    (h : decodeAlu (fieldX w) (fieldY w) (fieldN w) = some i) : IsWordOf w i := by
  have hw := word_eq_nibbles w
  rw [hf] at hw
  rcases nibble_cases (fieldN w) with hn | hn | hn | hn | hn | hn | hn | hn | hn | hn | hn | hn | hn |
    hn | hn | hn <;> rw [hn] at h hw <;> simp [decodeAlu] at h <;> subst h
  case inr.inr.inr.inr.inr.inr.inl => exact ⟨_, hw⟩
  case inr.inr.inr.inr.inr.inr.inr.inr.inr.inr.inr.inr.inr.inr.inl => exact ⟨_, hw⟩
  all_goals exact hw

theorem decodeKey_isWordOf {w : Word} {i : Instr} (hf : fieldFamily w = 0xE)
    (h : decodeKey (fieldX w) (fieldNN w) = some i) : IsWordOf w i := by
  have hw := word_eq_wordXNN w
  rw [hf] at hw
  unfold decodeKey at h
  repeat' split at h
  all_goals cases h
  all_goals (rename_i hn; rw [hn] at hw; exact hw)

theorem decodeMisc_isWordOf {w : Word} {i : Instr} (hf : fieldFamily w = 0xF)
    (h : decodeMisc (fieldX w) (fieldNN w) = some i) : IsWordOf w i := by
  have hw := word_eq_wordXNN w
  rw [hf] at hw
  unfold decodeMisc at h
  repeat' split at h
  all_goals cases h
  all_goals (rename_i hn; rw [hn] at hw; exact hw)

theorem decodeFixed_isWordOf {w : Word} {i : Instr} (h : decodeFixed w = some i) : IsWordOf w i := by
  unfold decodeFixed at h
  repeat' split at h
  all_goals cases h
  all_goals assumption

theorem isWordOf_of_decodeWord {w : Word} {i : Instr} (h : decodeWord w = some i) : IsWordOf w i := by
  have h1 := word_eq_wordNNN w
  have h2 := word_eq_wordXNN w
  have h3 := word_eq_nibbles w
  rcases nibble_cases (fieldFamily w) with hf | hf | hf | hf | hf | hf | hf | hf | hf | hf | hf | hf |
    hf | hf | hf | hf
  case inl => exact decodeFixed_isWordOf (by simpa [decodeWord, hf] using h)
  case inr.inr.inr.inr.inr.inr.inr.inr.inl =>
    exact decodeAlu_isWordOf hf (by simpa [decodeWord, hf] using h)
  case inr.inr.inr.inr.inr.inr.inr.inr.inr.inr.inr.inr.inr.inr.inl =>
    exact decodeKey_isWordOf hf (by simpa [decodeWord, hf] using h)
  case inr.inr.inr.inr.inr.inr.inr.inr.inr.inr.inr.inr.inr.inr.inr =>
    exact decodeMisc_isWordOf hf (by simpa [decodeWord, hf] using h)
  all_goals
    simp [decodeWord, hf] at h
    subst h
    rw [hf] at h1 h2 h3
    first
      | exact h1
      | exact h2
      | exact ⟨_, h3⟩
      | exact ⟨_, rfl, h3⟩

/-- The decoder gives an instruction exactly on the words the opcode map gives it (R77, R80). -/
theorem decodeWord_eq_some_iff {w : Word} {i : Instr} : decodeWord w = some i ↔ IsWordOf w i :=
  ⟨isWordOf_of_decodeWord, decodeWord_of_isWordOf⟩

end Sys2Proof
end

