-- ==== Sys2Proof/Laws/Memory.lean ====
section
/-! SUPPORT. Memory: a read after a write, the canonical form and its uniqueness (`20_memory.md` R50 to
R59). -/

namespace Sys2Proof.Machine

/-- The addresses of the list lie above `a`. -/
abbrev Memory.above (a : Nat) (m : Memory) : Prop := ∀ c ∈ m, a < c.1

theorem Memory.read_of_above {m : Memory} {a : Nat} (h : m.above a) : m.read a = Memory.unlisted a := by
  induction m with
  | nil => rfl
  | cons c rest ih =>
    have hc := h c (by simp)
    have : a ≠ c.1 := by omega
    simp only [Memory.read, this, if_false]
    exact ih fun d hd => h d (by simp [hd])

theorem Memory.read_cons (a : Nat) (u : Byte) (m : Memory) (b : Nat) (h : m.above a) :
    (Memory.cons a u m).read b = if b = a then u else m.read b := by
  unfold Memory.cons
  split
  · rename_i hu
    by_cases hb : b = a
    · simp only [hb, if_true, Memory.read_of_above h, hu]
    · simp only [hb, if_false]
  · rfl

/-- The parts of a canonical list. -/
theorem Memory.wf_cons {c : Host.Cell} {m : Memory} :
    Memory.wf (c :: m) ↔
      m.above c.1 ∧ (c.1 < Config.memSize ∧ c.2 ≠ Memory.unlisted c.1) ∧ m.wf := by
  simp only [Memory.wf, List.pairwise_cons, List.mem_cons, forall_eq_or_imp]
  tauto

theorem Memory.above_trans {a b : Nat} {m : Memory} (hab : a < b) (h : m.above b) : m.above a :=
  fun c hc => lt_trans hab (h c hc)

theorem Memory.above_insert {m : Memory} {a b : Nat} {u : Byte} (hab : b < a) (h : m.above b) :
    (m.insert a u).above b := by
  induction m with
  | nil =>
    intro c hc
    simp only [Memory.insert, Memory.cons] at hc
    split at hc <;> simp_all
  | cons d rest ih =>
    have hd := h d (by simp)
    have hrest : Memory.above b rest := fun c hc => h c (by simp [hc])
    intro c hc
    simp only [Memory.insert, Memory.cons] at hc
    split at hc
    · split at hc
      · exact h c hc
      · rcases List.mem_cons.mp hc with rfl | hc
        · exact hab
        · exact h c hc
    · split at hc
      · split at hc
        · exact hrest c hc
        · rcases List.mem_cons.mp hc with rfl | hc
          · exact hab
          · exact hrest c hc
      · rcases List.mem_cons.mp hc with rfl | hc
        · exact hd
        · exact ih hrest c hc

theorem Memory.read_insert {m : Memory} (h : m.wf) (a : Nat) (u : Byte) (b : Nat) :
    (m.insert a u).read b = if b = a then u else m.read b := by
  induction m with
  | nil => exact Memory.read_cons a u [] b (by simp [Memory.above])
  | cons c rest ih =>
    obtain ⟨habove, -, hrest⟩ := Memory.wf_cons.mp h
    simp only [Memory.insert]
    split
    · rename_i hlt
      rw [Memory.read_cons]
      intro d hd
      rcases List.mem_cons.mp hd with rfl | hd
      · exact hlt
      · exact lt_trans hlt (habove d hd)
    · split
      · rename_i heq
        subst heq
        rw [Memory.read_cons _ _ _ _ habove]
        by_cases hb : b = c.1 <;> simp [Memory.read, hb]
      · rename_i hne
        simp only [Memory.read, ih hrest]
        by_cases hb : b = c.1
        · have : b ≠ a := by omega
          simp [hb, show c.1 ≠ a by omega]
        · simp [hb]

theorem Memory.wf_consCell {m : Memory} {a : Nat} (u : Byte) (ha : a < Config.memSize) (hm : m.above a)
    (h : m.wf) : (Memory.cons a u m).wf := by
  unfold Memory.cons
  split
  · exact h
  · rename_i hu
    exact Memory.wf_cons.mpr ⟨hm, ⟨ha, hu⟩, h⟩

theorem Memory.insert_wf {m : Memory} (h : m.wf) {a : Nat} (ha : a < Config.memSize) (u : Byte) :
    (m.insert a u).wf := by
  induction m with
  | nil => exact Memory.wf_consCell u ha (by simp [Memory.above]) h
  | cons c rest ih =>
    obtain ⟨habove, hc, hrest⟩ := Memory.wf_cons.mp h
    simp only [Memory.insert]
    split
    · rename_i hlt
      refine Memory.wf_consCell u ha ?_ h
      intro d hd
      rcases List.mem_cons.mp hd with rfl | hd
      · exact hlt
      · exact lt_trans hlt (habove d hd)
    · split
      · rename_i heq
        exact Memory.wf_consCell u ha (heq ▸ habove) hrest
      · refine Memory.wf_cons.mpr ⟨Memory.above_insert (by omega) habove, hc, ih hrest⟩

/-- A write keeps the canonical form. -/
theorem Memory.write_wf {m : Memory} (h : m.wf) (a : Nat) (u : Byte) : (m.write a u).wf := by
  unfold Memory.write
  split
  · exact Memory.insert_wf h ‹_› u
  · exact h

/-- A read after a write: the byte written at its address, the old byte elsewhere. -/
theorem Memory.read_write {m : Memory} (h : m.wf) {a : Nat} (ha : a < Config.memSize) (u : Byte)
    (b : Nat) : (m.write a u).read b = if b = a then u else m.read b := by
  simp only [Memory.write, ha, if_true, Memory.read_insert h]

/-- Writing bytes keeps the canonical form. -/
theorem Memory.writeBytes_wf {m : Memory} (h : m.wf) (a : Nat) (bs : List Byte) :
    (m.writeBytes a bs).wf := by
  induction bs generalizing m a with
  | nil => exact h
  | cons u rest ih => exact ih (Memory.write_wf h a u) (a + 1)

/-- What an address reads as after bytes are written from `a`: the byte that fell there, or the old
one. -/
theorem Memory.read_writeBytes {m : Memory} (h : m.wf) (a : Nat) (bs : List Byte)
    (hr : a + bs.length ≤ Config.memSize) (b : Nat) :
    (m.writeBytes a bs).read b = if a ≤ b ∧ b < a + bs.length then bs.getD (b - a) 0 else m.read b := by
  induction bs generalizing m a with
  | nil =>
    rw [if_neg (by simp only [List.length_nil]; omega)]
    rfl
  | cons u rest ih =>
    simp only [List.length_cons] at hr ⊢
    simp only [Memory.writeBytes]
    rw [ih (Memory.write_wf h a u) (a + 1) (by omega), Memory.read_write h (by omega)]
    by_cases hab : b = a
    · subst hab
      simp
    · by_cases hin : a ≤ b ∧ b < a + (rest.length + 1)
      · have h1 : a + 1 ≤ b ∧ b < a + 1 + rest.length := by omega
        obtain ⟨k, hk⟩ : ∃ k, b - a = k + 1 := ⟨b - a - 1, by omega⟩
        have hk' : b - (a + 1) = k := by omega
        simp [h1, hin, hk, hk']
      · rw [if_neg (by omega), if_neg hab, if_neg hin]

/-- An address outside the bytes written reads as before. -/
theorem Memory.read_writeBytes_outside {m : Memory} (h : m.wf) {a : Nat} {bs : List Byte}
    (hr : a + bs.length ≤ Config.memSize) {b : Nat} (hb : inBytes a bs.length b = false) :
    (m.writeBytes a bs).read b = m.read b := by
  rw [Memory.read_writeBytes h a bs hr b, if_neg]
  rintro ⟨h1, h2⟩
  simp [inBytes, h1, h2] at hb

/-- Canonical memories that read alike are the same list. -/
theorem Memory.wf_ext {m m' : Memory} (h : m.wf) (h' : m'.wf) (heq : ∀ a, m.read a = m'.read a) :
    m = m' := by
  induction m generalizing m' with
  | nil =>
    cases m' with
    | nil => rfl
    | cons d rest' =>
      obtain ⟨-, ⟨-, hd⟩, -⟩ := Memory.wf_cons.mp h'
      exact absurd (by simpa [Memory.read] using (heq d.1).symm) hd
  | cons c rest ih =>
    obtain ⟨hca, ⟨-, hc⟩, hrest⟩ := Memory.wf_cons.mp h
    cases m' with
    | nil => exact absurd (by simpa [Memory.read] using heq c.1) hc
    | cons d rest' =>
      obtain ⟨hda, ⟨-, hd⟩, hrest'⟩ := Memory.wf_cons.mp h'
      have hcd : c.1 = d.1 := by
        rcases lt_trichotomy c.1 d.1 with hlt | heq1 | hgt
        · have := heq c.1
          rw [Memory.read_of_above (m := d :: rest') (by
            intro e he
            rcases List.mem_cons.mp he with rfl | he
            · exact hlt
            · exact lt_trans hlt (hda e he))] at this
          exact absurd (by simpa [Memory.read] using this) hc
        · exact heq1
        · have := heq d.1
          rw [Memory.read_of_above (m := c :: rest) (by
            intro e he
            rcases List.mem_cons.mp he with rfl | he
            · exact hgt
            · exact lt_trans hgt (hca e he))] at this
          exact absurd (by simpa [Memory.read] using this.symm) hd
      have hval : c.2 = d.2 := by
        have := heq c.1
        simpa [Memory.read, hcd] using this
      have hrests : rest = rest' := by
        refine ih hrest hrest' fun a => ?_
        by_cases ha : a = c.1
        · rw [Memory.read_of_above (ha ▸ hca), Memory.read_of_above (ha ▸ hcd ▸ hda)]
        · have := heq a
          simpa [Memory.read, ha, hcd ▸ ha] using this
      rw [hrests, Prod.ext hcd hval]

/-- The memory of reset is canonical. -/
theorem Memory.reset_wf : State.reset.mem.wf := by
  simp [State.reset, Memory.wf]

/-- The memory of a boot is canonical. -/
theorem Memory.bootMemory_wf (glyphs : Vector Byte 80) (prog : List Byte) :
    (bootMemory glyphs prog).wf :=
  Memory.writeBytes_wf (Memory.writeBytes_wf Memory.reset_wf _ _) _ _

/-- An address from 80 on reads as 0 when nothing is listed there. -/
theorem Memory.unlisted_eq_zero {a : Nat} (h : 80 ≤ a) : Memory.unlisted a = 0 := by
  have : font.length = 80 := by decide
  simp only [Memory.unlisted, List.getD_eq_getElem?_getD]
  rw [List.getElem?_eq_none (by omega)]
  rfl

end Sys2Proof.Machine
end

