-- ==== Sys2Proof/Laws/State.lean ====
section
/-! SUPPORT. What every update of the state does to every field, one lemma each, so that no later proof
unfolds a record update; then the accessors. -/

namespace Sys2Proof.Machine

variable (s : State)

/-! ### `State.setReg` -/

@[simp] theorem State.setReg_v (x : VReg) (u : Byte) : (s.setReg x u).v = s.v.set x.val u := rfl
@[simp] theorem State.setReg_i (x : VReg) (u : Byte) : (s.setReg x u).i = s.i := rfl
@[simp] theorem State.setReg_pc (x : VReg) (u : Byte) : (s.setReg x u).pc = s.pc := rfl
@[simp] theorem State.setReg_sp (x : VReg) (u : Byte) : (s.setReg x u).sp = s.sp := rfl
@[simp] theorem State.setReg_stack (x : VReg) (u : Byte) : (s.setReg x u).stack = s.stack := rfl
@[simp] theorem State.setReg_dt (x : VReg) (u : Byte) : (s.setReg x u).dt = s.dt := rfl
@[simp] theorem State.setReg_st (x : VReg) (u : Byte) : (s.setReg x u).st = s.st := rfl
@[simp] theorem State.setReg_fb (x : VReg) (u : Byte) : (s.setReg x u).fb = s.fb := rfl
@[simp] theorem State.setReg_mode (x : VReg) (u : Byte) : (s.setReg x u).mode = s.mode := rfl
@[simp] theorem State.setReg_awaitX (x : VReg) (u : Byte) : (s.setReg x u).awaitX = s.awaitX := rfl
@[simp] theorem State.setReg_toneActive (x : VReg) (u : Byte) : (s.setReg x u).toneActive = s.toneActive := rfl
@[simp] theorem State.setReg_lastDecay (x : VReg) (u : Byte) : (s.setReg x u).lastDecay = s.lastDecay := rfl
@[simp] theorem State.setReg_faultRecord (x : VReg) (u : Byte) : (s.setReg x u).faultRecord = s.faultRecord := rfl
@[simp] theorem State.setReg_mem (x : VReg) (u : Byte) : (s.setReg x u).mem = s.mem := rfl
@[simp] theorem State.setReg_fbUpdate (x : VReg) (u : Byte) : (s.setReg x u).fbUpdate = s.fbUpdate := rfl
@[simp] theorem State.setReg_inputs (x : VReg) (u : Byte) : (s.setReg x u).inputs = s.inputs := rfl
@[simp] theorem State.setReg_cycle (x : VReg) (u : Byte) : (s.setReg x u).cycle = s.cycle := rfl

/-! ### `State.advance` -/

@[simp] theorem State.advance_v : (s.advance).v = s.v := rfl
@[simp] theorem State.advance_i : (s.advance).i = s.i := rfl
@[simp] theorem State.advance_pc : (s.advance).pc = s.pc + 2 := rfl
@[simp] theorem State.advance_sp : (s.advance).sp = s.sp := rfl
@[simp] theorem State.advance_stack : (s.advance).stack = s.stack := rfl
@[simp] theorem State.advance_dt : (s.advance).dt = s.dt := rfl
@[simp] theorem State.advance_st : (s.advance).st = s.st := rfl
@[simp] theorem State.advance_fb : (s.advance).fb = s.fb := rfl
@[simp] theorem State.advance_mode : (s.advance).mode = s.mode := rfl
@[simp] theorem State.advance_awaitX : (s.advance).awaitX = s.awaitX := rfl
@[simp] theorem State.advance_toneActive : (s.advance).toneActive = s.toneActive := rfl
@[simp] theorem State.advance_lastDecay : (s.advance).lastDecay = s.lastDecay := rfl
@[simp] theorem State.advance_faultRecord : (s.advance).faultRecord = s.faultRecord := rfl
@[simp] theorem State.advance_mem : (s.advance).mem = s.mem := rfl
@[simp] theorem State.advance_fbUpdate : (s.advance).fbUpdate = s.fbUpdate := rfl
@[simp] theorem State.advance_inputs : (s.advance).inputs = s.inputs := rfl
@[simp] theorem State.advance_cycle : (s.advance).cycle = s.cycle := rfl

/-! ### `State.skipIf` -/

@[simp] theorem State.skipIf_v (c : Bool) : (s.skipIf c).v = s.v := rfl
@[simp] theorem State.skipIf_i (c : Bool) : (s.skipIf c).i = s.i := rfl
@[simp] theorem State.skipIf_pc (c : Bool) : (s.skipIf c).pc = s.pc + (if c then 4 else 2) := rfl
@[simp] theorem State.skipIf_sp (c : Bool) : (s.skipIf c).sp = s.sp := rfl
@[simp] theorem State.skipIf_stack (c : Bool) : (s.skipIf c).stack = s.stack := rfl
@[simp] theorem State.skipIf_dt (c : Bool) : (s.skipIf c).dt = s.dt := rfl
@[simp] theorem State.skipIf_st (c : Bool) : (s.skipIf c).st = s.st := rfl
@[simp] theorem State.skipIf_fb (c : Bool) : (s.skipIf c).fb = s.fb := rfl
@[simp] theorem State.skipIf_mode (c : Bool) : (s.skipIf c).mode = s.mode := rfl
@[simp] theorem State.skipIf_awaitX (c : Bool) : (s.skipIf c).awaitX = s.awaitX := rfl
@[simp] theorem State.skipIf_toneActive (c : Bool) : (s.skipIf c).toneActive = s.toneActive := rfl
@[simp] theorem State.skipIf_lastDecay (c : Bool) : (s.skipIf c).lastDecay = s.lastDecay := rfl
@[simp] theorem State.skipIf_faultRecord (c : Bool) : (s.skipIf c).faultRecord = s.faultRecord := rfl
@[simp] theorem State.skipIf_mem (c : Bool) : (s.skipIf c).mem = s.mem := rfl
@[simp] theorem State.skipIf_fbUpdate (c : Bool) : (s.skipIf c).fbUpdate = s.fbUpdate := rfl
@[simp] theorem State.skipIf_inputs (c : Bool) : (s.skipIf c).inputs = s.inputs := rfl
@[simp] theorem State.skipIf_cycle (c : Bool) : (s.skipIf c).cycle = s.cycle := rfl

/-! ### `State.goto` -/

@[simp] theorem State.goto_v (p : PcVal) : (s.goto p).v = s.v := rfl
@[simp] theorem State.goto_i (p : PcVal) : (s.goto p).i = s.i := rfl
@[simp] theorem State.goto_pc (p : PcVal) : (s.goto p).pc = p := rfl
@[simp] theorem State.goto_sp (p : PcVal) : (s.goto p).sp = s.sp := rfl
@[simp] theorem State.goto_stack (p : PcVal) : (s.goto p).stack = s.stack := rfl
@[simp] theorem State.goto_dt (p : PcVal) : (s.goto p).dt = s.dt := rfl
@[simp] theorem State.goto_st (p : PcVal) : (s.goto p).st = s.st := rfl
@[simp] theorem State.goto_fb (p : PcVal) : (s.goto p).fb = s.fb := rfl
@[simp] theorem State.goto_mode (p : PcVal) : (s.goto p).mode = s.mode := rfl
@[simp] theorem State.goto_awaitX (p : PcVal) : (s.goto p).awaitX = s.awaitX := rfl
@[simp] theorem State.goto_toneActive (p : PcVal) : (s.goto p).toneActive = s.toneActive := rfl
@[simp] theorem State.goto_lastDecay (p : PcVal) : (s.goto p).lastDecay = s.lastDecay := rfl
@[simp] theorem State.goto_faultRecord (p : PcVal) : (s.goto p).faultRecord = s.faultRecord := rfl
@[simp] theorem State.goto_mem (p : PcVal) : (s.goto p).mem = s.mem := rfl
@[simp] theorem State.goto_fbUpdate (p : PcVal) : (s.goto p).fbUpdate = s.fbUpdate := rfl
@[simp] theorem State.goto_inputs (p : PcVal) : (s.goto p).inputs = s.inputs := rfl
@[simp] theorem State.goto_cycle (p : PcVal) : (s.goto p).cycle = s.cycle := rfl

/-! ### `State.pushPc` -/

@[simp] theorem State.pushPc_v : (s.pushPc).v = s.v := rfl
@[simp] theorem State.pushPc_i : (s.pushPc).i = s.i := rfl
@[simp] theorem State.pushPc_pc : (s.pushPc).pc = s.pc := rfl
@[simp] theorem State.pushPc_sp : (s.pushPc).sp = s.sp + 1 := rfl
@[simp] theorem State.pushPc_stack : (s.pushPc).stack = s.stack.set (s.sp + 1).toNat (s.pc.setWidth 12) (s.sp + 1).isLt := rfl
@[simp] theorem State.pushPc_dt : (s.pushPc).dt = s.dt := rfl
@[simp] theorem State.pushPc_st : (s.pushPc).st = s.st := rfl
@[simp] theorem State.pushPc_fb : (s.pushPc).fb = s.fb := rfl
@[simp] theorem State.pushPc_mode : (s.pushPc).mode = s.mode := rfl
@[simp] theorem State.pushPc_awaitX : (s.pushPc).awaitX = s.awaitX := rfl
@[simp] theorem State.pushPc_toneActive : (s.pushPc).toneActive = s.toneActive := rfl
@[simp] theorem State.pushPc_lastDecay : (s.pushPc).lastDecay = s.lastDecay := rfl
@[simp] theorem State.pushPc_faultRecord : (s.pushPc).faultRecord = s.faultRecord := rfl
@[simp] theorem State.pushPc_mem : (s.pushPc).mem = s.mem := rfl
@[simp] theorem State.pushPc_fbUpdate : (s.pushPc).fbUpdate = s.fbUpdate := rfl
@[simp] theorem State.pushPc_inputs : (s.pushPc).inputs = s.inputs := rfl
@[simp] theorem State.pushPc_cycle : (s.pushPc).cycle = s.cycle := rfl

/-! ### `State.popSp` -/

@[simp] theorem State.popSp_v : (s.popSp).v = s.v := rfl
@[simp] theorem State.popSp_i : (s.popSp).i = s.i := rfl
@[simp] theorem State.popSp_pc : (s.popSp).pc = s.pc := rfl
@[simp] theorem State.popSp_sp : (s.popSp).sp = s.sp - 1 := rfl
@[simp] theorem State.popSp_stack : (s.popSp).stack = s.stack := rfl
@[simp] theorem State.popSp_dt : (s.popSp).dt = s.dt := rfl
@[simp] theorem State.popSp_st : (s.popSp).st = s.st := rfl
@[simp] theorem State.popSp_fb : (s.popSp).fb = s.fb := rfl
@[simp] theorem State.popSp_mode : (s.popSp).mode = s.mode := rfl
@[simp] theorem State.popSp_awaitX : (s.popSp).awaitX = s.awaitX := rfl
@[simp] theorem State.popSp_toneActive : (s.popSp).toneActive = s.toneActive := rfl
@[simp] theorem State.popSp_lastDecay : (s.popSp).lastDecay = s.lastDecay := rfl
@[simp] theorem State.popSp_faultRecord : (s.popSp).faultRecord = s.faultRecord := rfl
@[simp] theorem State.popSp_mem : (s.popSp).mem = s.mem := rfl
@[simp] theorem State.popSp_fbUpdate : (s.popSp).fbUpdate = s.fbUpdate := rfl
@[simp] theorem State.popSp_inputs : (s.popSp).inputs = s.inputs := rfl
@[simp] theorem State.popSp_cycle : (s.popSp).cycle = s.cycle := rfl

/-! ### `State.present` -/

@[simp] theorem State.present_v (fb : Framebuffer) : (s.present fb).v = s.v := rfl
@[simp] theorem State.present_i (fb : Framebuffer) : (s.present fb).i = s.i := rfl
@[simp] theorem State.present_pc (fb : Framebuffer) : (s.present fb).pc = s.pc := rfl
@[simp] theorem State.present_sp (fb : Framebuffer) : (s.present fb).sp = s.sp := rfl
@[simp] theorem State.present_stack (fb : Framebuffer) : (s.present fb).stack = s.stack := rfl
@[simp] theorem State.present_dt (fb : Framebuffer) : (s.present fb).dt = s.dt := rfl
@[simp] theorem State.present_st (fb : Framebuffer) : (s.present fb).st = s.st := rfl
@[simp] theorem State.present_fb (fb : Framebuffer) : (s.present fb).fb = fb := rfl
@[simp] theorem State.present_mode (fb : Framebuffer) : (s.present fb).mode = s.mode := rfl
@[simp] theorem State.present_awaitX (fb : Framebuffer) : (s.present fb).awaitX = s.awaitX := rfl
@[simp] theorem State.present_toneActive (fb : Framebuffer) : (s.present fb).toneActive = s.toneActive := rfl
@[simp] theorem State.present_lastDecay (fb : Framebuffer) : (s.present fb).lastDecay = s.lastDecay := rfl
@[simp] theorem State.present_faultRecord (fb : Framebuffer) : (s.present fb).faultRecord = s.faultRecord := rfl
@[simp] theorem State.present_mem (fb : Framebuffer) : (s.present fb).mem = s.mem := rfl
@[simp] theorem State.present_fbUpdate (fb : Framebuffer) : (s.present fb).fbUpdate = true := rfl
@[simp] theorem State.present_inputs (fb : Framebuffer) : (s.present fb).inputs = s.inputs := rfl
@[simp] theorem State.present_cycle (fb : Framebuffer) : (s.present fb).cycle = s.cycle := rfl

/-! ### `State.enterFault` -/

@[simp] theorem State.enterFault_v (c : FaultCode) (w : Option Word) (n : Option PcVal) : (s.enterFault c w n).v = s.v := rfl
@[simp] theorem State.enterFault_i (c : FaultCode) (w : Option Word) (n : Option PcVal) : (s.enterFault c w n).i = s.i := rfl
@[simp] theorem State.enterFault_pc (c : FaultCode) (w : Option Word) (n : Option PcVal) : (s.enterFault c w n).pc = s.pc := rfl
@[simp] theorem State.enterFault_sp (c : FaultCode) (w : Option Word) (n : Option PcVal) : (s.enterFault c w n).sp = s.sp := rfl
@[simp] theorem State.enterFault_stack (c : FaultCode) (w : Option Word) (n : Option PcVal) : (s.enterFault c w n).stack = s.stack := rfl
@[simp] theorem State.enterFault_dt (c : FaultCode) (w : Option Word) (n : Option PcVal) : (s.enterFault c w n).dt = s.dt := rfl
@[simp] theorem State.enterFault_st (c : FaultCode) (w : Option Word) (n : Option PcVal) : (s.enterFault c w n).st = s.st := rfl
@[simp] theorem State.enterFault_fb (c : FaultCode) (w : Option Word) (n : Option PcVal) : (s.enterFault c w n).fb = s.fb := rfl
@[simp] theorem State.enterFault_mode (c : FaultCode) (w : Option Word) (n : Option PcVal) : (s.enterFault c w n).mode = .faulted := rfl
@[simp] theorem State.enterFault_awaitX (c : FaultCode) (w : Option Word) (n : Option PcVal) : (s.enterFault c w n).awaitX = s.awaitX := rfl
@[simp] theorem State.enterFault_toneActive (c : FaultCode) (w : Option Word) (n : Option PcVal) : (s.enterFault c w n).toneActive = s.toneActive := rfl
@[simp] theorem State.enterFault_lastDecay (c : FaultCode) (w : Option Word) (n : Option PcVal) : (s.enterFault c w n).lastDecay = s.lastDecay := rfl
@[simp] theorem State.enterFault_faultRecord (c : FaultCode) (w : Option Word) (n : Option PcVal) : (s.enterFault c w n).faultRecord = some ⟨c, s.pc, w, n⟩ := rfl
@[simp] theorem State.enterFault_mem (c : FaultCode) (w : Option Word) (n : Option PcVal) : (s.enterFault c w n).mem = s.mem := rfl
@[simp] theorem State.enterFault_fbUpdate (c : FaultCode) (w : Option Word) (n : Option PcVal) : (s.enterFault c w n).fbUpdate = s.fbUpdate := rfl
@[simp] theorem State.enterFault_inputs (c : FaultCode) (w : Option Word) (n : Option PcVal) : (s.enterFault c w n).inputs = s.inputs := rfl
@[simp] theorem State.enterFault_cycle (c : FaultCode) (w : Option Word) (n : Option PcVal) : (s.enterFault c w n).cycle = s.cycle := rfl

/-! ### `State.instrFault` -/

@[simp] theorem State.instrFault_v (c : FaultCode) (n : Option PcVal) : (s.instrFault c n).v = s.v := rfl
@[simp] theorem State.instrFault_i (c : FaultCode) (n : Option PcVal) : (s.instrFault c n).i = s.i := rfl
@[simp] theorem State.instrFault_pc (c : FaultCode) (n : Option PcVal) : (s.instrFault c n).pc = s.pc := rfl
@[simp] theorem State.instrFault_sp (c : FaultCode) (n : Option PcVal) : (s.instrFault c n).sp = s.sp := rfl
@[simp] theorem State.instrFault_stack (c : FaultCode) (n : Option PcVal) : (s.instrFault c n).stack = s.stack := rfl
@[simp] theorem State.instrFault_dt (c : FaultCode) (n : Option PcVal) : (s.instrFault c n).dt = s.dt := rfl
@[simp] theorem State.instrFault_st (c : FaultCode) (n : Option PcVal) : (s.instrFault c n).st = s.st := rfl
@[simp] theorem State.instrFault_fb (c : FaultCode) (n : Option PcVal) : (s.instrFault c n).fb = s.fb := rfl
@[simp] theorem State.instrFault_mode (c : FaultCode) (n : Option PcVal) : (s.instrFault c n).mode = .faulted := rfl
@[simp] theorem State.instrFault_awaitX (c : FaultCode) (n : Option PcVal) : (s.instrFault c n).awaitX = s.awaitX := rfl
@[simp] theorem State.instrFault_toneActive (c : FaultCode) (n : Option PcVal) : (s.instrFault c n).toneActive = s.toneActive := rfl
@[simp] theorem State.instrFault_lastDecay (c : FaultCode) (n : Option PcVal) : (s.instrFault c n).lastDecay = s.lastDecay := rfl
@[simp] theorem State.instrFault_faultRecord (c : FaultCode) (n : Option PcVal) : (s.instrFault c n).faultRecord = some ⟨c, s.pc, some s.currentWord, n⟩ := rfl
@[simp] theorem State.instrFault_mem (c : FaultCode) (n : Option PcVal) : (s.instrFault c n).mem = s.mem := rfl
@[simp] theorem State.instrFault_fbUpdate (c : FaultCode) (n : Option PcVal) : (s.instrFault c n).fbUpdate = s.fbUpdate := rfl
@[simp] theorem State.instrFault_inputs (c : FaultCode) (n : Option PcVal) : (s.instrFault c n).inputs = s.inputs := rfl
@[simp] theorem State.instrFault_cycle (c : FaultCode) (n : Option PcVal) : (s.instrFault c n).cycle = s.cycle := rfl

/-! ### `State.loadRegs` -/

@[simp] theorem State.loadRegs_i (x : VReg) (a : Nat) : (s.loadRegs x a).i = s.i := rfl
@[simp] theorem State.loadRegs_pc (x : VReg) (a : Nat) : (s.loadRegs x a).pc = s.pc := rfl
@[simp] theorem State.loadRegs_sp (x : VReg) (a : Nat) : (s.loadRegs x a).sp = s.sp := rfl
@[simp] theorem State.loadRegs_stack (x : VReg) (a : Nat) : (s.loadRegs x a).stack = s.stack := rfl
@[simp] theorem State.loadRegs_dt (x : VReg) (a : Nat) : (s.loadRegs x a).dt = s.dt := rfl
@[simp] theorem State.loadRegs_st (x : VReg) (a : Nat) : (s.loadRegs x a).st = s.st := rfl
@[simp] theorem State.loadRegs_fb (x : VReg) (a : Nat) : (s.loadRegs x a).fb = s.fb := rfl
@[simp] theorem State.loadRegs_mode (x : VReg) (a : Nat) : (s.loadRegs x a).mode = s.mode := rfl
@[simp] theorem State.loadRegs_awaitX (x : VReg) (a : Nat) : (s.loadRegs x a).awaitX = s.awaitX := rfl
@[simp] theorem State.loadRegs_toneActive (x : VReg) (a : Nat) : (s.loadRegs x a).toneActive = s.toneActive := rfl
@[simp] theorem State.loadRegs_lastDecay (x : VReg) (a : Nat) : (s.loadRegs x a).lastDecay = s.lastDecay := rfl
@[simp] theorem State.loadRegs_faultRecord (x : VReg) (a : Nat) : (s.loadRegs x a).faultRecord = s.faultRecord := rfl
@[simp] theorem State.loadRegs_mem (x : VReg) (a : Nat) : (s.loadRegs x a).mem = s.mem := rfl
@[simp] theorem State.loadRegs_fbUpdate (x : VReg) (a : Nat) : (s.loadRegs x a).fbUpdate = s.fbUpdate := rfl
@[simp] theorem State.loadRegs_inputs (x : VReg) (a : Nat) : (s.loadRegs x a).inputs = s.inputs := rfl
@[simp] theorem State.loadRegs_cycle (x : VReg) (a : Nat) : (s.loadRegs x a).cycle = s.cycle := rfl

/-! ### `State.takeKey` -/

@[simp] theorem State.takeKey_v (x : VReg) (k : Nibble) : (s.takeKey x k).v = s.v.set x.val (k.setWidth 8) := rfl
@[simp] theorem State.takeKey_i (x : VReg) (k : Nibble) : (s.takeKey x k).i = s.i := rfl
@[simp] theorem State.takeKey_pc (x : VReg) (k : Nibble) : (s.takeKey x k).pc = s.pc := rfl
@[simp] theorem State.takeKey_sp (x : VReg) (k : Nibble) : (s.takeKey x k).sp = s.sp := rfl
@[simp] theorem State.takeKey_stack (x : VReg) (k : Nibble) : (s.takeKey x k).stack = s.stack := rfl
@[simp] theorem State.takeKey_dt (x : VReg) (k : Nibble) : (s.takeKey x k).dt = s.dt := rfl
@[simp] theorem State.takeKey_st (x : VReg) (k : Nibble) : (s.takeKey x k).st = s.st := rfl
@[simp] theorem State.takeKey_fb (x : VReg) (k : Nibble) : (s.takeKey x k).fb = s.fb := rfl
@[simp] theorem State.takeKey_mode (x : VReg) (k : Nibble) : (s.takeKey x k).mode = s.mode := rfl
@[simp] theorem State.takeKey_awaitX (x : VReg) (k : Nibble) : (s.takeKey x k).awaitX = s.awaitX := rfl
@[simp] theorem State.takeKey_toneActive (x : VReg) (k : Nibble) : (s.takeKey x k).toneActive = s.toneActive := rfl
@[simp] theorem State.takeKey_lastDecay (x : VReg) (k : Nibble) : (s.takeKey x k).lastDecay = s.lastDecay := rfl
@[simp] theorem State.takeKey_faultRecord (x : VReg) (k : Nibble) : (s.takeKey x k).faultRecord = s.faultRecord := rfl
@[simp] theorem State.takeKey_mem (x : VReg) (k : Nibble) : (s.takeKey x k).mem = s.mem := rfl
@[simp] theorem State.takeKey_fbUpdate (x : VReg) (k : Nibble) : (s.takeKey x k).fbUpdate = s.fbUpdate := rfl
@[simp] theorem State.takeKey_inputs (x : VReg) (k : Nibble) : (s.takeKey x k).inputs = s.inputs := rfl
@[simp] theorem State.takeKey_cycle (x : VReg) (k : Nibble) : (s.takeKey x k).cycle = s.cycle := rfl

/-! ### `State.enterWait` -/

@[simp] theorem State.enterWait_v (x : VReg) : (s.enterWait x).v = s.v := rfl
@[simp] theorem State.enterWait_i (x : VReg) : (s.enterWait x).i = s.i := rfl
@[simp] theorem State.enterWait_pc (x : VReg) : (s.enterWait x).pc = s.pc := rfl
@[simp] theorem State.enterWait_sp (x : VReg) : (s.enterWait x).sp = s.sp := rfl
@[simp] theorem State.enterWait_stack (x : VReg) : (s.enterWait x).stack = s.stack := rfl
@[simp] theorem State.enterWait_dt (x : VReg) : (s.enterWait x).dt = s.dt := rfl
@[simp] theorem State.enterWait_st (x : VReg) : (s.enterWait x).st = s.st := rfl
@[simp] theorem State.enterWait_fb (x : VReg) : (s.enterWait x).fb = s.fb := rfl
@[simp] theorem State.enterWait_mode (x : VReg) : (s.enterWait x).mode = .awaitKey := rfl
@[simp] theorem State.enterWait_awaitX (x : VReg) : (s.enterWait x).awaitX = x := rfl
@[simp] theorem State.enterWait_toneActive (x : VReg) : (s.enterWait x).toneActive = s.toneActive := rfl
@[simp] theorem State.enterWait_lastDecay (x : VReg) : (s.enterWait x).lastDecay = s.lastDecay := rfl
@[simp] theorem State.enterWait_faultRecord (x : VReg) : (s.enterWait x).faultRecord = s.faultRecord := rfl
@[simp] theorem State.enterWait_mem (x : VReg) : (s.enterWait x).mem = s.mem := rfl
@[simp] theorem State.enterWait_fbUpdate (x : VReg) : (s.enterWait x).fbUpdate = s.fbUpdate := rfl
@[simp] theorem State.enterWait_inputs (x : VReg) : (s.enterWait x).inputs = s.inputs := rfl
@[simp] theorem State.enterWait_cycle (x : VReg) : (s.enterWait x).cycle = s.cycle := rfl

/-! ### `State.beginCycle` -/

@[simp] theorem State.beginCycle_v : (s.beginCycle).v = s.v := rfl
@[simp] theorem State.beginCycle_i : (s.beginCycle).i = s.i := rfl
@[simp] theorem State.beginCycle_pc : (s.beginCycle).pc = s.pc := rfl
@[simp] theorem State.beginCycle_sp : (s.beginCycle).sp = s.sp := rfl
@[simp] theorem State.beginCycle_stack : (s.beginCycle).stack = s.stack := rfl
@[simp] theorem State.beginCycle_dt : (s.beginCycle).dt = s.dt := rfl
@[simp] theorem State.beginCycle_st : (s.beginCycle).st = s.st := rfl
@[simp] theorem State.beginCycle_fb : (s.beginCycle).fb = s.fb := rfl
@[simp] theorem State.beginCycle_mode : (s.beginCycle).mode = s.mode := rfl
@[simp] theorem State.beginCycle_awaitX : (s.beginCycle).awaitX = s.awaitX := rfl
@[simp] theorem State.beginCycle_toneActive : (s.beginCycle).toneActive = s.toneActive := rfl
@[simp] theorem State.beginCycle_lastDecay : (s.beginCycle).lastDecay = s.lastDecay := rfl
@[simp] theorem State.beginCycle_faultRecord : (s.beginCycle).faultRecord = s.faultRecord := rfl
@[simp] theorem State.beginCycle_mem : (s.beginCycle).mem = s.mem := rfl
@[simp] theorem State.beginCycle_fbUpdate : (s.beginCycle).fbUpdate = false := rfl
@[simp] theorem State.beginCycle_inputs : (s.beginCycle).inputs = s.inputs := rfl
@[simp] theorem State.beginCycle_cycle : (s.beginCycle).cycle = s.cycle := rfl

/-! ### `State.endCycle` -/

@[simp] theorem State.endCycle_v : (s.endCycle).v = s.v := rfl
@[simp] theorem State.endCycle_i : (s.endCycle).i = s.i := rfl
@[simp] theorem State.endCycle_pc : (s.endCycle).pc = s.pc := rfl
@[simp] theorem State.endCycle_sp : (s.endCycle).sp = s.sp := rfl
@[simp] theorem State.endCycle_stack : (s.endCycle).stack = s.stack := rfl
@[simp] theorem State.endCycle_dt : (s.endCycle).dt = s.dt := rfl
@[simp] theorem State.endCycle_st : (s.endCycle).st = s.st := rfl
@[simp] theorem State.endCycle_fb : (s.endCycle).fb = s.fb := rfl
@[simp] theorem State.endCycle_mode : (s.endCycle).mode = s.mode := rfl
@[simp] theorem State.endCycle_awaitX : (s.endCycle).awaitX = s.awaitX := rfl
@[simp] theorem State.endCycle_toneActive : (s.endCycle).toneActive = s.toneActive := rfl
@[simp] theorem State.endCycle_lastDecay : (s.endCycle).lastDecay = s.lastDecay := rfl
@[simp] theorem State.endCycle_faultRecord : (s.endCycle).faultRecord = s.faultRecord := rfl
@[simp] theorem State.endCycle_mem : (s.endCycle).mem = s.mem := rfl
@[simp] theorem State.endCycle_fbUpdate : (s.endCycle).fbUpdate = s.fbUpdate := rfl
@[simp] theorem State.endCycle_inputs : (s.endCycle).inputs = s.inputs.tail := rfl
@[simp] theorem State.endCycle_cycle : (s.endCycle).cycle = s.cycle + 1 := rfl

/-! ### `State.quitCycle` -/

@[simp] theorem State.quitCycle_v : (s.quitCycle).v = s.v := rfl
@[simp] theorem State.quitCycle_i : (s.quitCycle).i = s.i := rfl
@[simp] theorem State.quitCycle_pc : (s.quitCycle).pc = s.pc := rfl
@[simp] theorem State.quitCycle_sp : (s.quitCycle).sp = s.sp := rfl
@[simp] theorem State.quitCycle_stack : (s.quitCycle).stack = s.stack := rfl
@[simp] theorem State.quitCycle_dt : (s.quitCycle).dt = s.dt := rfl
@[simp] theorem State.quitCycle_st : (s.quitCycle).st = s.st := rfl
@[simp] theorem State.quitCycle_fb : (s.quitCycle).fb = s.fb := rfl
@[simp] theorem State.quitCycle_mode : (s.quitCycle).mode = .halted := rfl
@[simp] theorem State.quitCycle_awaitX : (s.quitCycle).awaitX = s.awaitX := rfl
@[simp] theorem State.quitCycle_toneActive : (s.quitCycle).toneActive = s.toneActive := rfl
@[simp] theorem State.quitCycle_lastDecay : (s.quitCycle).lastDecay = s.lastDecay := rfl
@[simp] theorem State.quitCycle_faultRecord : (s.quitCycle).faultRecord = s.faultRecord := rfl
@[simp] theorem State.quitCycle_mem : (s.quitCycle).mem = s.mem := rfl
@[simp] theorem State.quitCycle_fbUpdate : (s.quitCycle).fbUpdate = s.fbUpdate := rfl
@[simp] theorem State.quitCycle_inputs : (s.quitCycle).inputs = s.inputs := rfl
@[simp] theorem State.quitCycle_cycle : (s.quitCycle).cycle = s.cycle := rfl

/-! ### `State.timerGate` -/

@[simp] theorem State.timerGate_v (inp : CycleInput) : (s.timerGate inp).v = s.v := rfl
@[simp] theorem State.timerGate_i (inp : CycleInput) : (s.timerGate inp).i = s.i := rfl
@[simp] theorem State.timerGate_pc (inp : CycleInput) : (s.timerGate inp).pc = s.pc := rfl
@[simp] theorem State.timerGate_sp (inp : CycleInput) : (s.timerGate inp).sp = s.sp := rfl
@[simp] theorem State.timerGate_stack (inp : CycleInput) : (s.timerGate inp).stack = s.stack := rfl
@[simp] theorem State.timerGate_dt (inp : CycleInput) : (s.timerGate inp).dt = if inp.tick then decay s.dt else s.dt := rfl
@[simp] theorem State.timerGate_st (inp : CycleInput) : (s.timerGate inp).st = if inp.tick then decay s.st else s.st := rfl
@[simp] theorem State.timerGate_fb (inp : CycleInput) : (s.timerGate inp).fb = s.fb := rfl
@[simp] theorem State.timerGate_mode (inp : CycleInput) : (s.timerGate inp).mode = s.mode := rfl
@[simp] theorem State.timerGate_awaitX (inp : CycleInput) : (s.timerGate inp).awaitX = s.awaitX := rfl
@[simp] theorem State.timerGate_toneActive (inp : CycleInput) : (s.timerGate inp).toneActive = if inp.tick && decay s.st == 0 then false else s.toneActive := rfl
@[simp] theorem State.timerGate_lastDecay (inp : CycleInput) : (s.timerGate inp).lastDecay = if inp.tick then inp.now else s.lastDecay := rfl
@[simp] theorem State.timerGate_faultRecord (inp : CycleInput) : (s.timerGate inp).faultRecord = s.faultRecord := rfl
@[simp] theorem State.timerGate_mem (inp : CycleInput) : (s.timerGate inp).mem = s.mem := rfl
@[simp] theorem State.timerGate_fbUpdate (inp : CycleInput) : (s.timerGate inp).fbUpdate = s.fbUpdate := rfl
@[simp] theorem State.timerGate_inputs (inp : CycleInput) : (s.timerGate inp).inputs = s.inputs := rfl
@[simp] theorem State.timerGate_cycle (inp : CycleInput) : (s.timerGate inp).cycle = s.cycle := rfl

/-! ### The accessors, where the update leaves what they read -/

@[simp] theorem State.setReg_stackAt (x : VReg) (u : Byte) (k : BitVec 4) : (s.setReg x u).stackAt k = s.stackAt k := rfl
@[simp] theorem State.setReg_pixel (x : VReg) (u : Byte) (row : Fin 32) (col : Fin 64) : (s.setReg x u).pixel row col = s.pixel row col := rfl
@[simp] theorem State.setReg_input (x : VReg) (u : Byte) : (s.setReg x u).input = s.input := rfl
@[simp] theorem State.setReg_currentWord (x : VReg) (u : Byte) : (s.setReg x u).currentWord = s.currentWord := rfl
@[simp] theorem State.setReg_fetch (x : VReg) (u : Byte) : (s.setReg x u).fetch = s.fetch := rfl
@[simp] theorem State.advance_reg (r : VReg) : (s.advance).reg r = s.reg r := rfl
@[simp] theorem State.advance_stackAt (k : BitVec 4) : (s.advance).stackAt k = s.stackAt k := rfl
@[simp] theorem State.advance_pixel (row : Fin 32) (col : Fin 64) : (s.advance).pixel row col = s.pixel row col := rfl
@[simp] theorem State.advance_input : (s.advance).input = s.input := rfl
@[simp] theorem State.skipIf_reg (c : Bool) (r : VReg) : (s.skipIf c).reg r = s.reg r := rfl
@[simp] theorem State.skipIf_stackAt (c : Bool) (k : BitVec 4) : (s.skipIf c).stackAt k = s.stackAt k := rfl
@[simp] theorem State.skipIf_pixel (c : Bool) (row : Fin 32) (col : Fin 64) : (s.skipIf c).pixel row col = s.pixel row col := rfl
@[simp] theorem State.skipIf_input (c : Bool) : (s.skipIf c).input = s.input := rfl
@[simp] theorem State.goto_reg (p : PcVal) (r : VReg) : (s.goto p).reg r = s.reg r := rfl
@[simp] theorem State.goto_stackAt (p : PcVal) (k : BitVec 4) : (s.goto p).stackAt k = s.stackAt k := rfl
@[simp] theorem State.goto_pixel (p : PcVal) (row : Fin 32) (col : Fin 64) : (s.goto p).pixel row col = s.pixel row col := rfl
@[simp] theorem State.goto_input (p : PcVal) : (s.goto p).input = s.input := rfl
@[simp] theorem State.pushPc_reg (r : VReg) : (s.pushPc).reg r = s.reg r := rfl
@[simp] theorem State.pushPc_pixel (row : Fin 32) (col : Fin 64) : (s.pushPc).pixel row col = s.pixel row col := rfl
@[simp] theorem State.pushPc_input : (s.pushPc).input = s.input := rfl
@[simp] theorem State.pushPc_currentWord : (s.pushPc).currentWord = s.currentWord := rfl
@[simp] theorem State.pushPc_fetch : (s.pushPc).fetch = s.fetch := rfl
@[simp] theorem State.popSp_reg (r : VReg) : (s.popSp).reg r = s.reg r := rfl
@[simp] theorem State.popSp_stackAt (k : BitVec 4) : (s.popSp).stackAt k = s.stackAt k := rfl
@[simp] theorem State.popSp_pixel (row : Fin 32) (col : Fin 64) : (s.popSp).pixel row col = s.pixel row col := rfl
@[simp] theorem State.popSp_input : (s.popSp).input = s.input := rfl
@[simp] theorem State.popSp_currentWord : (s.popSp).currentWord = s.currentWord := rfl
@[simp] theorem State.popSp_fetch : (s.popSp).fetch = s.fetch := rfl
@[simp] theorem State.present_reg (fb : Framebuffer) (r : VReg) : (s.present fb).reg r = s.reg r := rfl
@[simp] theorem State.present_stackAt (fb : Framebuffer) (k : BitVec 4) : (s.present fb).stackAt k = s.stackAt k := rfl
@[simp] theorem State.present_input (fb : Framebuffer) : (s.present fb).input = s.input := rfl
@[simp] theorem State.present_currentWord (fb : Framebuffer) : (s.present fb).currentWord = s.currentWord := rfl
@[simp] theorem State.present_fetch (fb : Framebuffer) : (s.present fb).fetch = s.fetch := rfl
@[simp] theorem State.enterFault_reg (c : FaultCode) (w : Option Word) (n : Option PcVal) (r : VReg) : (s.enterFault c w n).reg r = s.reg r := rfl
@[simp] theorem State.enterFault_stackAt (c : FaultCode) (w : Option Word) (n : Option PcVal) (k : BitVec 4) : (s.enterFault c w n).stackAt k = s.stackAt k := rfl
@[simp] theorem State.enterFault_pixel (c : FaultCode) (w : Option Word) (n : Option PcVal) (row : Fin 32) (col : Fin 64) : (s.enterFault c w n).pixel row col = s.pixel row col := rfl
@[simp] theorem State.enterFault_input (c : FaultCode) (w : Option Word) (n : Option PcVal) : (s.enterFault c w n).input = s.input := rfl
@[simp] theorem State.enterFault_currentWord (c : FaultCode) (w : Option Word) (n : Option PcVal) : (s.enterFault c w n).currentWord = s.currentWord := rfl
@[simp] theorem State.enterFault_fetch (c : FaultCode) (w : Option Word) (n : Option PcVal) : (s.enterFault c w n).fetch = s.fetch := rfl
@[simp] theorem State.instrFault_reg (c : FaultCode) (n : Option PcVal) (r : VReg) : (s.instrFault c n).reg r = s.reg r := rfl
@[simp] theorem State.instrFault_stackAt (c : FaultCode) (n : Option PcVal) (k : BitVec 4) : (s.instrFault c n).stackAt k = s.stackAt k := rfl
@[simp] theorem State.instrFault_pixel (c : FaultCode) (n : Option PcVal) (row : Fin 32) (col : Fin 64) : (s.instrFault c n).pixel row col = s.pixel row col := rfl
@[simp] theorem State.instrFault_input (c : FaultCode) (n : Option PcVal) : (s.instrFault c n).input = s.input := rfl
@[simp] theorem State.instrFault_currentWord (c : FaultCode) (n : Option PcVal) : (s.instrFault c n).currentWord = s.currentWord := rfl
@[simp] theorem State.instrFault_fetch (c : FaultCode) (n : Option PcVal) : (s.instrFault c n).fetch = s.fetch := rfl
@[simp] theorem State.loadRegs_stackAt (x : VReg) (a : Nat) (k : BitVec 4) : (s.loadRegs x a).stackAt k = s.stackAt k := rfl
@[simp] theorem State.loadRegs_pixel (x : VReg) (a : Nat) (row : Fin 32) (col : Fin 64) : (s.loadRegs x a).pixel row col = s.pixel row col := rfl
@[simp] theorem State.loadRegs_input (x : VReg) (a : Nat) : (s.loadRegs x a).input = s.input := rfl
@[simp] theorem State.loadRegs_currentWord (x : VReg) (a : Nat) : (s.loadRegs x a).currentWord = s.currentWord := rfl
@[simp] theorem State.loadRegs_fetch (x : VReg) (a : Nat) : (s.loadRegs x a).fetch = s.fetch := rfl
@[simp] theorem State.takeKey_stackAt (x : VReg) (u : Nibble) (k : BitVec 4) : (s.takeKey x u).stackAt k = s.stackAt k := rfl
@[simp] theorem State.takeKey_pixel (x : VReg) (k : Nibble) (row : Fin 32) (col : Fin 64) : (s.takeKey x k).pixel row col = s.pixel row col := rfl
@[simp] theorem State.takeKey_input (x : VReg) (k : Nibble) : (s.takeKey x k).input = s.input := rfl
@[simp] theorem State.takeKey_currentWord (x : VReg) (k : Nibble) : (s.takeKey x k).currentWord = s.currentWord := rfl
@[simp] theorem State.takeKey_fetch (x : VReg) (k : Nibble) : (s.takeKey x k).fetch = s.fetch := rfl
@[simp] theorem State.enterWait_reg (x : VReg) (r : VReg) : (s.enterWait x).reg r = s.reg r := rfl
@[simp] theorem State.enterWait_stackAt (x : VReg) (k : BitVec 4) : (s.enterWait x).stackAt k = s.stackAt k := rfl
@[simp] theorem State.enterWait_pixel (x : VReg) (row : Fin 32) (col : Fin 64) : (s.enterWait x).pixel row col = s.pixel row col := rfl
@[simp] theorem State.enterWait_input (x : VReg) : (s.enterWait x).input = s.input := rfl
@[simp] theorem State.enterWait_currentWord (x : VReg) : (s.enterWait x).currentWord = s.currentWord := rfl
@[simp] theorem State.enterWait_fetch (x : VReg) : (s.enterWait x).fetch = s.fetch := rfl
@[simp] theorem State.beginCycle_reg (r : VReg) : (s.beginCycle).reg r = s.reg r := rfl
@[simp] theorem State.beginCycle_stackAt (k : BitVec 4) : (s.beginCycle).stackAt k = s.stackAt k := rfl
@[simp] theorem State.beginCycle_pixel (row : Fin 32) (col : Fin 64) : (s.beginCycle).pixel row col = s.pixel row col := rfl
@[simp] theorem State.beginCycle_input : (s.beginCycle).input = s.input := rfl
@[simp] theorem State.beginCycle_currentWord : (s.beginCycle).currentWord = s.currentWord := rfl
@[simp] theorem State.beginCycle_fetch : (s.beginCycle).fetch = s.fetch := rfl
@[simp] theorem State.endCycle_reg (r : VReg) : (s.endCycle).reg r = s.reg r := rfl
@[simp] theorem State.endCycle_stackAt (k : BitVec 4) : (s.endCycle).stackAt k = s.stackAt k := rfl
@[simp] theorem State.endCycle_pixel (row : Fin 32) (col : Fin 64) : (s.endCycle).pixel row col = s.pixel row col := rfl
@[simp] theorem State.endCycle_currentWord : (s.endCycle).currentWord = s.currentWord := rfl
@[simp] theorem State.endCycle_fetch : (s.endCycle).fetch = s.fetch := rfl
@[simp] theorem State.quitCycle_reg (r : VReg) : (s.quitCycle).reg r = s.reg r := rfl
@[simp] theorem State.quitCycle_stackAt (k : BitVec 4) : (s.quitCycle).stackAt k = s.stackAt k := rfl
@[simp] theorem State.quitCycle_pixel (row : Fin 32) (col : Fin 64) : (s.quitCycle).pixel row col = s.pixel row col := rfl
@[simp] theorem State.quitCycle_input : (s.quitCycle).input = s.input := rfl
@[simp] theorem State.quitCycle_currentWord : (s.quitCycle).currentWord = s.currentWord := rfl
@[simp] theorem State.quitCycle_fetch : (s.quitCycle).fetch = s.fetch := rfl
@[simp] theorem State.timerGate_reg (inp : CycleInput) (r : VReg) : (s.timerGate inp).reg r = s.reg r := rfl
@[simp] theorem State.timerGate_stackAt (inp : CycleInput) (k : BitVec 4) : (s.timerGate inp).stackAt k = s.stackAt k := rfl
@[simp] theorem State.timerGate_pixel (inp : CycleInput) (row : Fin 32) (col : Fin 64) : (s.timerGate inp).pixel row col = s.pixel row col := rfl
@[simp] theorem State.timerGate_input (inp : CycleInput) : (s.timerGate inp).input = s.input := rfl
@[simp] theorem State.timerGate_currentWord (inp : CycleInput) : (s.timerGate inp).currentWord = s.currentWord := rfl
@[simp] theorem State.timerGate_fetch (inp : CycleInput) : (s.timerGate inp).fetch = s.fetch := rfl

/-! ### The accessors, where the update writes what they read -/

@[simp] theorem State.reg_setReg (x : VReg) (u : Byte) (r : VReg) :
    (s.setReg x u).reg r = if r = x then u else s.reg r := by
  simp only [State.reg, State.setReg, Vector.getElem_set, Fin.ext_iff, eq_comm]

@[simp] theorem State.reg_takeKey (x : VReg) (k : Nibble) (r : VReg) :
    (s.takeKey x k).reg r = if r = x then k.setWidth 8 else s.reg r := s.reg_setReg x _ r

@[simp] theorem State.reg_loadRegs (x : VReg) (a : Nat) (r : VReg) :
    (s.loadRegs x a).reg r = if r ≤ x then s.mem.read (a + r.val) else s.reg r := by
  simp [State.reg, State.loadRegs]

@[simp] theorem State.stackAt_pushPc (k : BitVec 4) :
    s.pushPc.stackAt k = if k = s.sp + 1 then s.pc.setWidth 12 else s.stackAt k := by
  simp only [State.stackAt, State.pushPc, Vector.getElem_set, ← BitVec.toNat_inj, eq_comm]

@[simp] theorem State.pixel_present (fb : Framebuffer) (row : Fin 32) (col : Fin 64) :
    (s.present fb).pixel row col = fb.pixel row col := rfl

@[simp] theorem Framebuffer.pixel_clear (row : Fin 32) (col : Fin 64) :
    Framebuffer.clear.pixel row col = false := by
  simp [Framebuffer.pixel, Framebuffer.clear]

@[simp] theorem Framebuffer.pixel_toggle (fb : Framebuffer) (row row' : Fin 32) (col col' : Fin 64) :
    (fb.toggle row col).pixel row' col' =
      if row' = row ∧ col' = col then !fb.pixel row col else fb.pixel row' col' := by
  simp only [Framebuffer.pixel, Framebuffer.toggle, Vector.getElem_set, Fin.ext_iff]
  by_cases hr : row.val = row'.val
  · by_cases hc : col.val = col'.val
    · simp [hr, hc]
    · simp [hr, hc, eq_comm (a := col'.val)]
  · simp [hr, eq_comm (a := row'.val)]

/-- Two states with the same fields are the same state. -/
theorem State.eq_of_fields {s t : State} (hv : s.v = t.v) (hi : s.i = t.i) (hpc : s.pc = t.pc)
    (hsp : s.sp = t.sp) (hstack : s.stack = t.stack) (hdt : s.dt = t.dt) (hst : s.st = t.st)
    (hfb : s.fb = t.fb) (hmode : s.mode = t.mode) (hx : s.awaitX = t.awaitX)
    (htone : s.toneActive = t.toneActive) (hlast : s.lastDecay = t.lastDecay)
    (hrec : s.faultRecord = t.faultRecord) (hmem : s.mem = t.mem) (hup : s.fbUpdate = t.fbUpdate)
    (hin : s.inputs = t.inputs) (hcyc : s.cycle = t.cycle) : s = t := by
  cases s; cases t; simp_all

/-- Two register files that read alike are the same. -/
theorem State.v_eq_of_reg {s t : State} (h : ∀ r, s.reg r = t.reg r) : s.v = t.v :=
  Vector.ext fun i hi => h ⟨i, hi⟩

/-- Two framebuffers with the same pixels are the same. -/
theorem Framebuffer.eq_of_pixel {a b : Framebuffer} (h : ∀ row col, a.pixel row col = b.pixel row col) :
    a = b :=
  Vector.ext fun i hi => Vector.ext fun j hj => h ⟨i, hi⟩ ⟨j, hj⟩

end Sys2Proof.Machine
end

