-- ==== Sys2Proof/Laws/Exec.lean ====
section
/-! SUPPORT. One lemma for each shared operation of the meanings, and what a step can do. -/

namespace Sys2Proof.Machine

/-! ### Shared operations -/

theorem rangeOk_iff (lo count : Nat) : rangeOk lo count = true ↔ lo + count ≤ 0x1000 := by
  simp [rangeOk]

theorem rangeOk_eq_false {lo count : Nat} (h : lo + count > 0x1000) : rangeOk lo count = false := by
  rw [Bool.eq_false_iff, ne_eq, rangeOk_iff]
  omega

/-- A range that holds: the machine goes on as `ok` (R52). -/
theorem State.withRange_ok {s ok : State} {lo count : Nat} (h : lo + count ≤ 0x1000) :
    s.withRange lo count ok = ok := by
  simp [State.withRange, (rangeOk_iff lo count).mpr h]

/-- A range that fails from a 12-bit address: MEM_OUT_OF_RANGE at 0x1000 (R52). -/
theorem State.withRange_fault {s ok : State} {lo count : Nat} (hlo : lo ≤ 0xFFF)
    (h : lo + count > 0x1000) :
    s.withRange lo count ok = s.instrFault .memOutOfRange (some 0x1000) := by
  have hr : rangeOk lo count = false := rangeOk_eq_false h
  have hm : max lo 4096 = 4096 := by omega
  simp [State.withRange, hr, rangeFaultAddr, hm]

/-- Either way of a range check. -/
theorem State.withRange_cases (s ok : State) (lo count : Nat) :
    (lo + count ≤ 0x1000 ∧ s.withRange lo count ok = ok) ∨
    (lo + count > 0x1000 ∧
      s.withRange lo count ok = s.instrFault .memOutOfRange (some (rangeFaultAddr lo))) := by
  by_cases h : lo + count ≤ 0x1000
  · exact .inl ⟨h, State.withRange_ok h⟩
  · refine .inr ⟨by omega, ?_⟩
    have hr : rangeOk lo count = false := rangeOk_eq_false (by omega)
    simp [State.withRange, hr]

/-- Writing flag and result, the result last: Vx holds the result, VF the flag unless x = F (R142). -/
theorem State.writeFlagged_reg (s : State) (x : VReg) (flag : Bool) (result : Byte) (r : VReg) :
    (s.writeFlagged vfAlias x flag result).reg r =
      if r = x then result else if r = VF then flagByte flag else s.reg r := by
  simp [State.writeFlagged, vfAlias]

/-- Writing flag and result, in either order, touches the registers alone. -/
theorem State.writeFlagged_rest (s : State) (order : Config.VfAlias) (x : VReg) (flag : Bool)
    (result : Byte) :
    s.writeFlagged order x flag result = { s with v := (s.writeFlagged order x flag result).v } := by
  cases order <;> rfl

@[simp] theorem regsUpTo_length (s : State) (x : VReg) : (s.regsUpTo x).length = x.val + 1 := by
  simp only [State.regsUpTo, List.length_take, Vector.length_toList]
  omega

theorem regsUpTo_getD (s : State) (x k : VReg) (h : k ≤ x) : (s.regsUpTo x).getD k.val 0 = s.reg k := by
  have : k.val < x.val + 1 := Nat.lt_succ_of_le (Fin.le_def.mp h)
  simp [State.regsUpTo, State.reg, List.getD_eq_getElem?_getD, this]

@[simp] theorem bcdDigits_length (a : Byte) : (bcdDigits a).length = 3 := rfl

/-! ### Sprites (R184 to R186) -/

/-- Bit `b` of the byte falls on column `col`. -/
abbrev bitOnCol (cx byte : Byte) (k : Nat) (col : Fin 64) : Prop :=
  ∃ b, b < k ∧ spriteBit byte b = true ∧ wrapCol cx b = col

/-- Within a sprite row no two bits fall on one column (R186). -/
theorem wrapCol_injective {cx : Byte} {b b' : Nat} (hb : b < 8) (hb' : b' < 8)
    (h : wrapCol cx b = wrapCol cx b') : b = b' := by
  have := Fin.ext_iff.mp h
  simp only [wrapCol] at this
  omega

/-- No two rows of a sprite fall on one row of the screen (R186). -/
theorem wrapRow_injective {cy : Byte} {r r' : Nat} (hr : r < 32) (hr' : r' < 32)
    (h : wrapRow cy r = wrapRow cy r') : r = r' := by
  have := Fin.ext_iff.mp h
  simp only [wrapRow] at this
  omega

open Classical in
/-- The first `k` bits of a sprite row: each 1 bit inverts its pixel, and the collision flag is set if
one of them was lit before. -/
theorem plotBits_spec (row : Fin 32) (cx byte : Byte) (acc : Framebuffer × Bool) (k : Nat) (hk : k ≤ 8) :
    (∀ row' col, ((List.range k).foldl (plotBit row cx byte) acc).1.pixel row' col =
      (acc.1.pixel row' col ^^ decide (row' = row ∧ bitOnCol cx byte k col))) ∧
    (((List.range k).foldl (plotBit row cx byte) acc).2 = true ↔
      acc.2 = true ∨ ∃ col, bitOnCol cx byte k col ∧ acc.1.pixel row col = true) := by
  induction k with
  | zero => simp [bitOnCol]
  | succ k ih =>
    obtain ⟨ihp, ihc⟩ := ih (by omega)
    have hfresh : ¬ bitOnCol cx byte k (wrapCol cx k) := by
      rintro ⟨b, hb, -, hcol⟩
      have := wrapCol_injective (by omega) (by omega) hcol
      omega
    have hsucc : ∀ col, bitOnCol cx byte (k + 1) col ↔
        bitOnCol cx byte k col ∨ (spriteBit byte k = true ∧ wrapCol cx k = col) := by
      intro col
      constructor
      · rintro ⟨b, hb, hbit, hcol⟩
        rcases Nat.lt_succ_iff_lt_or_eq.mp hb with hlt | rfl
        · exact .inl ⟨b, hlt, hbit, hcol⟩
        · exact .inr ⟨hbit, hcol⟩
      · rintro (⟨b, hb, hbit, hcol⟩ | ⟨hbit, hcol⟩)
        · exact ⟨b, by omega, hbit, hcol⟩
        · exact ⟨k, by omega, hbit, hcol⟩
    rw [List.range_succ, List.foldl_append, List.foldl_cons, List.foldl_nil]
    by_cases hbit : spriteBit byte k = true
    · simp only [plotBit, hbit, if_true]
      refine ⟨fun row' col => ?_, ?_⟩
      · rw [Framebuffer.pixel_toggle, ihp, ihp]
        by_cases hrow : row' = row
        · by_cases hcol : col = wrapCol cx k
          · subst hrow hcol
            simp [hfresh, hsucc, hbit]
          · simp [hrow, hcol, hsucc, hbit, eq_comm (a := wrapCol cx k)]
        · simp [hrow]
      · rw [Bool.or_eq_true, ihc, ihp]
        simp only [hsucc, hbit, true_and, hfresh, and_false, decide_false, Bool.xor_false]
        constructor
        · rintro ((h | ⟨col, h, hp⟩) | h)
          · exact .inl h
          · exact .inr ⟨col, .inl h, hp⟩
          · exact .inr ⟨_, .inr rfl, h⟩
        · rintro (h | ⟨col, h | rfl, hp⟩)
          · exact .inl (.inl h)
          · exact .inl (.inr ⟨col, h, hp⟩)
          · exact .inr hp
    · simp only [plotBit, hbit, Bool.false_eq_true, if_false]
      simp only [hsucc, hbit, false_and, or_false, Bool.false_eq_true]
      exact ⟨ihp, ihc⟩

/-- Some row below `n` of the sprite puts a 1 bit on the pixel. -/
abbrev spriteOn (m : Memory) (a : Nat) (cx cy : Byte) (n : Nat) (row : Fin 32) (col : Fin 64) : Prop :=
  ∃ r, r < n ∧ wrapRow cy r = row ∧ bitOnCol cx (m.read (a + r)) 8 col

open Classical in
/-- The sprite loop: the pixels under 1 bits are inverted, and the flag says whether one was lit. -/
theorem plotSprite_spec (m : Memory) (a : Nat) (cx cy : Byte) (n : Nat) (hn : n ≤ 32)
    (fb : Framebuffer) :
    (∀ row col, (plotSprite m a cx cy n fb).1.pixel row col =
      (fb.pixel row col ^^ decide (spriteOn m a cx cy n row col))) ∧
    ((plotSprite m a cx cy n fb).2 = true ↔
      ∃ row col, spriteOn m a cx cy n row col ∧ fb.pixel row col = true) := by
  induction n with
  | zero => simp [plotSprite, spriteOn]
  | succ n ih =>
    obtain ⟨ihp, ihc⟩ := ih (by omega)
    have hfresh : ∀ col, ¬ spriteOn m a cx cy n (wrapRow cy n) col := by
      rintro col ⟨r, hr, hrow, -⟩
      have := wrapRow_injective (by omega) (by omega) hrow
      omega
    have hsucc : ∀ row col, spriteOn m a cx cy (n + 1) row col ↔
        spriteOn m a cx cy n row col ∨
          (wrapRow cy n = row ∧ bitOnCol cx (m.read (a + n)) 8 col) := by
      intro row col
      constructor
      · rintro ⟨r, hr, hrow, hbit⟩
        rcases Nat.lt_succ_iff_lt_or_eq.mp hr with hlt | rfl
        · exact .inl ⟨r, hlt, hrow, hbit⟩
        · exact .inr ⟨hrow, hbit⟩
      · rintro (⟨r, hr, hrow, hbit⟩ | ⟨hrow, hbit⟩)
        · exact ⟨r, by omega, hrow, hbit⟩
        · exact ⟨n, by omega, hrow, hbit⟩
    have hstep : plotSprite m a cx cy (n + 1) fb =
        plotRow m a cx cy (plotSprite m a cx cy n fb) n := by
      rw [plotSprite, List.range_succ, List.foldl_append]; rfl
    obtain ⟨hp, hc⟩ := plotBits_spec (wrapRow cy n) cx (m.read (a + n))
      (plotSprite m a cx cy n fb) 8 le_rfl
    rw [hstep]
    refine ⟨fun row col => ?_, ?_⟩
    · rw [plotRow, hp, ihp]
      by_cases hrow : row = wrapRow cy n
      · subst hrow
        simp [hsucc, hfresh]
      · simp [hsucc, hrow, eq_comm (a := wrapRow cy n)]
    · rw [plotRow, hc, ihc]
      simp only [hsucc, ihp, hfresh, decide_false, Bool.xor_false]
      constructor
      · rintro (⟨row, col, h, hl⟩ | ⟨col, h, hl⟩)
        · exact ⟨row, col, .inl h, hl⟩
        · exact ⟨_, col, .inr ⟨rfl, h⟩, hl⟩
      · rintro ⟨row, col, h | ⟨rfl, h⟩, hl⟩
        · exact .inl ⟨row, col, h, hl⟩
        · exact .inr ⟨col, h, hl⟩

/-! ### What a step can do -/

/-- The next state of a meaning; every meaning answers one. -/
theorem exec_answers_next (i : Instr) (s : State) : ∃ t, exec i s = .next t := by
  cases i
  case ret => by_cases h : s.sp = 0 <;> exact ⟨_, by simp only [exec, execRet, h]; rfl⟩
  case call nnn => by_cases h : s.sp = 15 <;> exact ⟨_, by simp only [exec, execCall, h]; rfl⟩
  case addI x =>
    by_cases h : indexSum s.i (s.reg x) > 0xFFF
    · exact ⟨_, by simp only [exec, execAddI, if_pos h]; rfl⟩
    · exact ⟨_, by simp only [exec, execAddI, if_neg h]; rfl⟩
  all_goals exact ⟨_, rfl⟩

theorem step_terminal {s : State} (h : s.mode.terminal = true) : step s = .next s := by
  unfold step State.oneCycle
  cases hm : s.mode <;> simp_all [Mode.terminal]

theorem step_quit {s : State} (h : s.mode.terminal = false) (hq : s.input.quit = true) :
    step s = .next s.beginCycle.quitCycle.endCycle := by
  unfold step State.oneCycle
  cases hm : s.mode <;> simp_all [Mode.terminal]

theorem step_await {s : State} (h : s.mode = .awaitKey) (hq : s.input.quit = false) :
    step s = .next ((s.beginCycle.resumeWait s.input).finishCycle s.input) := by
  simp [step, State.oneCycle, h, hq]

theorem step_run {s : State} (h : s.mode = .run) (hq : s.input.quit = false) :
    step s = s.beginCycle.runCycle s.input := by
  simp [step, State.oneCycle, h, hq]

theorem step_fetchFault {s : State} (h : s.mode = .run) (hq : s.input.quit = false)
    (hf : s.fetch = none) : step s = .next s.beginCycle.fetchFault.endCycle := by
  rw [step_run h hq, State.runCycle, State.beginCycle_fetch, hf]
  rfl

theorem step_unknown {s : State} {w : Word} (h : s.mode = .run) (hq : s.input.quit = false)
    (hf : s.fetch = some w) (hd : decodeWord w = none) :
    step s = .next (s.beginCycle.unknownFault w).endCycle := by
  rw [step_run h hq, State.runCycle, State.beginCycle_fetch, hf]
  simp only [hd]
  rfl

/-- The instruction at PC is the decoding of a fetched word. -/
theorem State.nextInstr_eq_some {s : State} {i : Instr} :
    s.nextInstr = some i ↔ ∃ w, s.fetch = some w ∧ decodeWord w = some i := by
  simp [State.nextInstr, Option.bind_eq_some_iff]

theorem step_exec {s u : State} {i : Instr} (h : s.mode = .run) (hq : s.input.quit = false)
    (hi : s.nextInstr = some i) (he : exec i s.beginCycle = .next u) :
    step s = .next (u.finishCycle s.input) := by
  obtain ⟨w, hf, hd⟩ := State.nextInstr_eq_some.mp hi
  rw [step_run h hq, State.runCycle, State.beginCycle_fetch, hf]
  simp only [hd, he]

/-- Everything a step can do: nothing in a terminal mode, quit, a cycle of the key wait, a fetch fault,
an unknown word, or the fetched instruction. -/
theorem step_cases {s t : State} (h : step s = .next t) :
    (s.mode.terminal = true ∧ t = s) ∨
    (s.mode.terminal = false ∧ s.input.quit = true ∧ t = s.beginCycle.quitCycle.endCycle) ∨
    (s.mode = .awaitKey ∧ s.input.quit = false ∧
      t = (s.beginCycle.resumeWait s.input).finishCycle s.input) ∨
    (s.mode = .run ∧ s.input.quit = false ∧ s.fetch = none ∧ t = s.beginCycle.fetchFault.endCycle) ∨
    (s.mode = .run ∧ s.input.quit = false ∧ ∃ w, s.fetch = some w ∧ decodeWord w = none ∧
      t = (s.beginCycle.unknownFault w).endCycle) ∨
    (s.mode = .run ∧ s.input.quit = false ∧ ∃ i u, s.nextInstr = some i ∧
      exec i s.beginCycle = .next u ∧ t = u.finishCycle s.input) := by
  by_cases hterm : s.mode.terminal = true
  · rw [step_terminal hterm] at h
    exact .inl ⟨hterm, (Host.Outcome.next.inj h).symm⟩
  · rw [Bool.not_eq_true] at hterm
    by_cases hq : s.input.quit = true
    · rw [step_quit hterm hq] at h
      exact .inr (.inl ⟨hterm, hq, (Host.Outcome.next.inj h).symm⟩)
    · rw [Bool.not_eq_true] at hq
      right; right
      cases hm : s.mode with
      | halted => simp [hm, Mode.terminal] at hterm
      | faulted => simp [hm, Mode.terminal] at hterm
      | awaitKey =>
        rw [step_await hm hq] at h
        exact .inl ⟨rfl, hq, (Host.Outcome.next.inj h).symm⟩
      | run =>
        right
        cases hf : s.fetch with
        | none =>
          rw [step_fetchFault hm hq hf] at h
          exact .inl ⟨rfl, hq, rfl, (Host.Outcome.next.inj h).symm⟩
        | some w =>
          right
          cases hd : decodeWord w with
          | none =>
            rw [step_unknown hm hq hf hd] at h
            exact .inl ⟨rfl, hq, w, rfl, hd, (Host.Outcome.next.inj h).symm⟩
          | some i =>
            have hi : s.nextInstr = some i := State.nextInstr_eq_some.mpr ⟨w, hf, hd⟩
            obtain ⟨u, hu⟩ := exec_answers_next i s.beginCycle
            rw [step_exec hm hq hi hu] at h
            exact .inr ⟨rfl, hq, i, u, hi, hu, (Host.Outcome.next.inj h).symm⟩

/-- A fetch succeeds exactly when both bytes are in range, and gives the word at PC (R101). -/
theorem State.fetch_eq_some {s : State} {w : Word} :
    s.fetch = some w ↔ s.pc.toNat + 2 ≤ 0x1000 ∧ w = s.currentWord := by
  unfold State.fetch
  by_cases h : s.pc.toNat + 2 ≤ 0x1000
  · simp [(rangeOk_iff _ _).mpr h, h, eq_comm]
  · simp [rangeOk_eq_false (by omega : s.pc.toNat + 2 > 0x1000), h]

theorem State.fetch_eq_none {s : State} : s.fetch = none ↔ s.pc.toNat + 2 > 0x1000 := by
  unfold State.fetch
  by_cases h : s.pc.toNat + 2 ≤ 0x1000
  · simp [(rangeOk_iff _ _).mpr h, h]
  · simp [rangeOk_eq_false (by omega : s.pc.toNat + 2 > 0x1000)]; omega

@[simp] theorem State.beginCycle_nextInstr (s : State) : s.beginCycle.nextInstr = s.nextInstr := rfl

end Sys2Proof.Machine
end

