-- ==== Sys2Proof/Laws/Frame.lean ====
section
/-! SUPPORT. What the meaning of an instruction can change at all, said once for all 34: the proofs about
whole cycles cite it and unfold no meaning. -/

namespace Sys2Proof.Machine

/-- What an instruction may do from `s` to `t`. -/
structure ExecFrame (ins : Instr) (s t : State) : Prop where
  ports : t.inputs = s.inputs ∧ t.cycle = s.cycle ∧ t.lastDecay = s.lastDecay
  regs : ∀ r, t.reg r = s.reg r ∨ ins.namesAsDest r = true ∨ (r = VF ∧ ins.setsFlag = true)
  index : t.i = s.i ∨ (∃ a, ins = .loadI a) ∨ (∃ x, ins = .addI x) ∨ (∃ x, ins = .loadFont x)
  stack : (t.sp = s.sp ∧ t.stack = s.stack) ∨
    (∃ a, ins = .call a ∧ s.sp ≠ 15 ∧ t.sp = s.pushPc.sp ∧ t.stack = s.pushPc.stack) ∨
    (ins = .ret ∧ s.sp ≠ 0 ∧ t.sp = s.sp - 1 ∧ t.stack = s.stack)
  delay : t.dt = s.dt ∨ ∃ x, ins = .loadDT x ∧ t.dt = s.reg x
  delaySet : ∀ x, ins = .loadDT x → t.dt = s.reg x
  sound : (t.st = s.st ∧ t.toneActive = s.toneActive) ∨
    ∃ x, ins = .loadST x ∧ t.st = s.reg x ∧ t.toneActive = (s.reg x != 0)
  soundSet : ∀ x, ins = .loadST x → t.st = s.reg x ∧ t.toneActive = (s.reg x != 0)
  display : (t.fb = s.fb ∧ t.fbUpdate = s.fbUpdate ∧
      (t.mode = .faulted ∨ ins ≠ .clearDisplay ∧ ∀ x y n, ins ≠ .draw x y n)) ∨
    ((ins = .clearDisplay ∨ ∃ x y n, ins = .draw x y n) ∧ t.fbUpdate = true ∧ t.mode = s.mode)
  memory : t.mem = s.mem ∨
    (∃ x, ins = .storeBcd x ∧ s.i.toNat + 3 ≤ 0x1000 ∧
      t.mem = s.mem.writeBytes s.i.toNat (bcdDigits (s.reg x))) ∨
    (∃ x, ins = .storeRegs x ∧ s.i.toNat + (x.val + 1) ≤ 0x1000 ∧
      t.mem = s.mem.writeBytes s.i.toNat (s.regsUpTo x))
  mode : (t.mode = s.mode ∧ t.awaitX = s.awaitX ∧ t.faultRecord = s.faultRecord) ∨
    (∃ c n, t = s.instrFault c n) ∨ (∃ x, ins = .waitKey x ∧ t = s.enterWait x)
  nextPc : t.pc = s.pc ∨ t.pc = s.pc + 2 ∨ t.pc = s.pc + 4 ∨ t.pc.toNat ≤ 0x10FE

theorem pcOfAddr_le (a : Addr) : (pcOfAddr a).toNat ≤ 0x10FE := by
  have := a.isLt
  simp [pcOfAddr]
  omega

theorem jumpV0Target_le (u : Byte) (a : Addr) : (jumpV0Target u a).toNat ≤ 0x10FE := by
  have := a.isLt
  have := u.isLt
  simp [jumpV0Target]
  omega

theorem returnTarget_le (a : Addr) : (returnTarget a).toNat ≤ 0x10FE := by
  have := a.isLt
  simp [returnTarget, pcOfAddr]
  omega

/-- A fault of the instruction's own keeps everything but the mode and the record. -/
theorem ExecFrame.ofFault (ins : Instr) (s : State) (c : FaultCode) (n : Option PcVal)
    (hd : ∀ x, ins ≠ .loadDT x) (hs : ∀ x, ins ≠ .loadST x) : ExecFrame ins s (s.instrFault c n) where
  ports := ⟨rfl, rfl, rfl⟩
  regs _ := .inl rfl
  index := .inl rfl
  stack := .inl ⟨rfl, rfl⟩
  delay := .inl rfl
  delaySet x h := absurd h (hd x)
  sound := .inl ⟨rfl, rfl⟩
  soundSet x h := absurd h (hs x)
  display := .inl ⟨rfl, rfl, .inl rfl⟩
  memory := .inl rfl
  mode := .inr (.inl ⟨c, n, rfl⟩)
  nextPc := .inl rfl

/-- An instruction that ends at PC + 2, PC + 4 or a target and writes registers only. -/
theorem ExecFrame.ofRegs {ins : Instr} {s t : State}
    (ht : t = { s with v := t.v, pc := t.pc })
    (hr : ∀ r, t.reg r = s.reg r ∨ ins.namesAsDest r = true ∨ (r = VF ∧ ins.setsFlag = true))
    (hpc : t.pc = s.pc ∨ t.pc = s.pc + 2 ∨ t.pc = s.pc + 4 ∨ t.pc.toNat ≤ 0x10FE)
    (hd : ∀ x, ins ≠ .loadDT x) (hs : ∀ x, ins ≠ .loadST x) (hc : ins ≠ .clearDisplay)
    (hw : ∀ x y n, ins ≠ .draw x y n) : ExecFrame ins s t where
  ports := by rw [ht]; exact ⟨rfl, rfl, rfl⟩
  regs := hr
  index := by rw [ht]; exact .inl rfl
  stack := by rw [ht]; exact .inl ⟨rfl, rfl⟩
  delay := by rw [ht]; exact .inl rfl
  delaySet x h := absurd h (hd x)
  sound := by rw [ht]; exact .inl ⟨rfl, rfl⟩
  soundSet x h := absurd h (hs x)
  display := by rw [ht]; exact .inl ⟨rfl, rfl, .inr ⟨hc, hw⟩⟩
  memory := by rw [ht]; exact .inl rfl
  mode := by rw [ht]; exact .inl ⟨rfl, rfl, rfl⟩
  nextPc := hpc

/-- A skip changes PC alone. -/
theorem ExecFrame.ofSkip (ins : Instr) (s : State) (c : Bool) (hd : ∀ x, ins ≠ .loadDT x)
    (hs : ∀ x, ins ≠ .loadST x) (hc : ins ≠ .clearDisplay) (hw : ∀ x y n, ins ≠ .draw x y n) :
    ExecFrame ins s (s.skipIf c) :=
  .ofRegs rfl (fun _ => .inl rfl) (by cases c <;> simp [State.skipIf]) hd hs hc hw

/-- An instruction that writes the register it names and goes on. -/
theorem ExecFrame.ofSetReg (ins : Instr) (s : State) (x : VReg) (u : Byte)
    (hx : ins.namesAsDest x = true) (hd : ∀ x, ins ≠ .loadDT x)
    (hs : ∀ x, ins ≠ .loadST x) (hc : ins ≠ .clearDisplay) (hw : ∀ x y n, ins ≠ .draw x y n) :
    ExecFrame ins s (s.setReg x u).advance := by
  refine .ofRegs rfl (fun r => ?_) (by simp [State.advance]) hd hs hc hw
  by_cases h : r = x
  · exact .inr (.inl (h ▸ hx))
  · exact .inl (by simp [h])

/-- An instruction that writes a flag and the register it names. -/
theorem ExecFrame.ofFlagged (ins : Instr) (s : State) (x : VReg) (f : Bool) (u : Byte)
    (hx : ins.namesAsDest x = true) (hf : ins.setsFlag = true) (hd : ∀ x, ins ≠ .loadDT x)
    (hs : ∀ x, ins ≠ .loadST x) (hc : ins ≠ .clearDisplay) (hw : ∀ x y n, ins ≠ .draw x y n) :
    ExecFrame ins s (s.writeFlagged vfAlias x f u).advance := by
  refine .ofRegs (by rw [State.writeFlagged_rest]; rfl) (fun r => ?_)
    (by rw [State.writeFlagged_rest]; simp [State.advance]) hd hs hc hw
  rw [State.advance_reg, State.writeFlagged_reg]
  by_cases h : r = x
  · exact .inr (.inl (h ▸ hx))
  · by_cases h' : r = VF
    · exact .inr (.inr ⟨h', hf⟩)
    · exact .inl (by simp [h, h'])

/-- Every instruction stays within its frame. -/
theorem exec_frame {ins : Instr} {s t : State} (h : exec ins s = .next t) : ExecFrame ins s t := by
  cases ins with
  | clearDisplay =>
    cases h
    constructor <;> simp
  | ret =>
    simp only [exec, execRet] at h
    split at h
    · cases h; exact .ofFault _ _ _ _ (by simp) (by simp)
    · rename_i hsp
      cases h
      constructor <;> simp [returnTarget_le]
      exact hsp
  | jump nnn =>
    cases h
    exact .ofRegs rfl (fun _ => .inl rfl) (by simp [pcOfAddr_le]) (by simp) (by simp) (by simp) (by simp)
  | call nnn =>
    simp only [exec, execCall] at h
    split at h
    · cases h; exact .ofFault _ _ _ _ (by simp) (by simp)
    · rename_i hsp
      cases h
      constructor <;> simp [pcOfAddr_le]
      exact hsp
  | skipEqImm x nn => cases h; exact .ofSkip _ _ _ (by simp) (by simp) (by simp) (by simp)
  | skipNeImm x nn => cases h; exact .ofSkip _ _ _ (by simp) (by simp) (by simp) (by simp)
  | skipEqReg x y => cases h; exact .ofSkip _ _ _ (by simp) (by simp) (by simp) (by simp)
  | skipNeReg x y => cases h; exact .ofSkip _ _ _ (by simp) (by simp) (by simp) (by simp)
  | skipKeyPressed x => cases h; exact .ofSkip _ _ _ (by simp) (by simp) (by simp) (by simp)
  | skipKeyNotPressed x => cases h; exact .ofSkip _ _ _ (by simp) (by simp) (by simp) (by simp)
  | loadImm x nn =>
    cases h
    exact .ofSetReg _ _ _ _ (by simp [Instr.namesAsDest]) (by simp) (by simp) (by simp) (by simp)
  | addImm x nn =>
    cases h
    exact .ofSetReg _ _ _ _ (by simp [Instr.namesAsDest]) (by simp) (by simp) (by simp) (by simp)
  | loadReg x y =>
    cases h
    exact .ofSetReg _ _ _ _ (by simp [Instr.namesAsDest]) (by simp) (by simp) (by simp) (by simp)
  | orReg x y =>
    cases h
    exact .ofSetReg _ _ _ _ (by simp [Instr.namesAsDest]) (by simp) (by simp) (by simp) (by simp)
  | andReg x y =>
    cases h
    exact .ofSetReg _ _ _ _ (by simp [Instr.namesAsDest]) (by simp) (by simp) (by simp) (by simp)
  | xorReg x y =>
    cases h
    exact .ofSetReg _ _ _ _ (by simp [Instr.namesAsDest]) (by simp) (by simp) (by simp) (by simp)
  | random x nn =>
    cases h
    exact .ofSetReg _ _ _ _ (by simp [Instr.namesAsDest]) (by simp) (by simp) (by simp) (by simp)
  | loadFromDT x =>
    cases h
    exact .ofSetReg _ _ _ _ (by simp [Instr.namesAsDest]) (by simp) (by simp) (by simp) (by simp)
  | addReg x y =>
    cases h
    exact .ofFlagged _ _ _ _ _ (by simp [Instr.namesAsDest]) rfl (by simp) (by simp) (by simp) (by simp)
  | subReg x y =>
    cases h
    exact .ofFlagged _ _ _ _ _ (by simp [Instr.namesAsDest]) rfl (by simp) (by simp) (by simp) (by simp)
  | shr x =>
    cases h
    exact .ofFlagged _ _ _ _ _ (by simp [Instr.namesAsDest]) rfl (by simp) (by simp) (by simp) (by simp)
  | subnReg x y =>
    cases h
    exact .ofFlagged _ _ _ _ _ (by simp [Instr.namesAsDest]) rfl (by simp) (by simp) (by simp) (by simp)
  | shl x =>
    cases h
    exact .ofFlagged _ _ _ _ _ (by simp [Instr.namesAsDest]) rfl (by simp) (by simp) (by simp) (by simp)
  | loadI nnn =>
    cases h
    constructor <;> simp
    intros
    exact .inl rfl
  | jumpV0 nnn =>
    cases h
    exact .ofRegs rfl (fun _ => .inl rfl) (by simp [jumpV0Target_le]) (by simp) (by simp) (by simp) (by simp)
  | draw x y n =>
    simp only [exec, execDraw] at h
    rcases State.withRange_cases s _ s.i.toNat n with ⟨-, hw⟩ | ⟨-, hw⟩
    · rw [hw] at h
      cases h
      constructor <;> simp [Instr.namesAsDest, Instr.setsFlag]
      intro r
      by_cases hr : r = 15 <;> simp [hr]
    · rw [hw] at h
      cases h
      exact .ofFault _ _ _ _ (by simp) (by simp)
  | waitKey x =>
    simp only [exec, execWaitKey] at h
    split at h
    · cases h; exact .ofSetReg _ _ _ _ (by simp [Instr.namesAsDest]) (by simp) (by simp) (by simp) (by simp)
    · cases h; constructor <;> simp
  | loadDT x =>
    cases h
    constructor <;> simp
    intros
    exact .inl rfl
  | loadST x =>
    cases h
    constructor <;> simp
    intros
    exact .inl rfl
  | addI x =>
    simp only [exec, execAddI] at h
    split at h
    · cases h; exact .ofFault _ _ _ _ (by simp) (by simp)
    · cases h
      constructor <;> simp
      intros
      exact .inl rfl
  | loadFont x =>
    cases h
    constructor <;> simp
    intros
    exact .inl rfl
  | storeBcd x =>
    simp only [exec, execStoreBcd] at h
    rcases State.withRange_cases s { s with mem := s.mem.writeBytes s.i.toNat (bcdDigits (s.reg x)) }.advance
      s.i.toNat 3 with ⟨hr, hw⟩ | ⟨-, hw⟩
    · rw [hw] at h
      cases h
      constructor <;> simp [hr]
      intros
      exact .inl rfl
    · rw [hw] at h
      cases h
      exact .ofFault _ _ _ _ (by simp) (by simp)
  | storeRegs x =>
    simp only [exec, execStoreRegs] at h
    rcases State.withRange_cases s { s with mem := s.mem.writeBytes s.i.toNat (s.regsUpTo x) }.advance
      s.i.toNat (x.val + 1) with ⟨hr, hw⟩ | ⟨-, hw⟩
    · rw [hw] at h
      cases h
      constructor <;> simp [hr]
      intros
      exact .inl rfl
    · rw [hw] at h
      cases h
      exact .ofFault _ _ _ _ (by simp) (by simp)
  | readRegs x =>
    simp only [exec, execReadRegs] at h
    rcases State.withRange_cases s (s.loadRegs x s.i.toNat).advance s.i.toNat (x.val + 1) with
      ⟨-, hw⟩ | ⟨-, hw⟩
    · rw [hw] at h
      cases h
      refine .ofRegs rfl (fun r => ?_) (by simp [State.advance]) (by simp) (by simp) (by simp) (by simp)
      by_cases hr : r ≤ x <;> simp [hr, Instr.namesAsDest]
    · rw [hw] at h
      cases h
      exact .ofFault _ _ _ _ (by simp) (by simp)

/-! ### The rest of the cycle -/

@[simp] theorem State.finishCycle_v (u : State) (inp : CycleInput) :
    (u.finishCycle inp).v = u.v := by
  unfold State.finishCycle; split <;> rfl

@[simp] theorem State.finishCycle_i (u : State) (inp : CycleInput) :
    (u.finishCycle inp).i = u.i := by
  unfold State.finishCycle; split <;> rfl

@[simp] theorem State.finishCycle_pc (u : State) (inp : CycleInput) :
    (u.finishCycle inp).pc = u.pc := by
  unfold State.finishCycle; split <;> rfl

@[simp] theorem State.finishCycle_sp (u : State) (inp : CycleInput) :
    (u.finishCycle inp).sp = u.sp := by
  unfold State.finishCycle; split <;> rfl

@[simp] theorem State.finishCycle_stack (u : State) (inp : CycleInput) :
    (u.finishCycle inp).stack = u.stack := by
  unfold State.finishCycle; split <;> rfl

@[simp] theorem State.finishCycle_fb (u : State) (inp : CycleInput) :
    (u.finishCycle inp).fb = u.fb := by
  unfold State.finishCycle; split <;> rfl

@[simp] theorem State.finishCycle_mode (u : State) (inp : CycleInput) :
    (u.finishCycle inp).mode = u.mode := by
  unfold State.finishCycle; split <;> rfl

@[simp] theorem State.finishCycle_awaitX (u : State) (inp : CycleInput) :
    (u.finishCycle inp).awaitX = u.awaitX := by
  unfold State.finishCycle; split <;> rfl

@[simp] theorem State.finishCycle_faultRecord (u : State) (inp : CycleInput) :
    (u.finishCycle inp).faultRecord = u.faultRecord := by
  unfold State.finishCycle; split <;> rfl

@[simp] theorem State.finishCycle_mem (u : State) (inp : CycleInput) :
    (u.finishCycle inp).mem = u.mem := by
  unfold State.finishCycle; split <;> rfl

@[simp] theorem State.finishCycle_fbUpdate (u : State) (inp : CycleInput) :
    (u.finishCycle inp).fbUpdate = u.fbUpdate := by
  unfold State.finishCycle; split <;> rfl

/-- A cycle of the key wait: an edge completes it, or nothing happens (R205). -/
theorem State.resumeWait_cases (s : State) (inp : CycleInput) :
    (∃ k, inp.keyEdge = some k ∧
      s.resumeWait inp = { (s.takeKey s.awaitX k).advance with mode := .run }) ∨
    (inp.keyEdge = none ∧ s.resumeWait inp = s) := by
  unfold State.resumeWait
  split <;> simp_all

theorem decay_toNat (u : Byte) : (decay u).toNat = u.toNat - 1 := by
  revert u
  decide

theorem State.reg_eq_of_v {s t : State} (h : s.v = t.v) (r : VReg) : s.reg r = t.reg r := by
  simp only [State.reg, h]

end Sys2Proof.Machine
end

