-- ==== Sys2Proof/Laws/PerInstr.lean ====
section
/-! SUPPORT. The statements made for all instructions, one lemma per instruction. -/

/-- The encoder's word carries the fixed bits of the instruction's row of the opcode map (R80). -/
def Sys2Proof.Laws.RowBits.Statement (i : Sys2Proof.Instr) : Prop :=
  Sys2Proof.rowMatches (Sys2Proof.encode i) i.row = true

namespace Sys2Proof.Laws

/-- A mask of the family nibble alone. -/
theorem rowMatches_family (f : Nibble) (r : BitVec 12) {m k : Word} (hm : m = f ++ (0 : BitVec 12))
    (hk : k = (0xF : Nibble) ++ (0 : BitVec 12)) : rowMatches ((f ++ r : BitVec (4 + 12)) : Word) (m, k) = true := by
  subst hm hk
  have hf : f &&& 0xF = f := BitVec.and_allOnes
  simp only [rowMatches]
  rw [BitVec.and_append, hf]
  simp

/-- A mask of the family nibble and the low byte. -/
theorem rowMatches_lowByte (f : Nibble) (x : VReg) (nn : Byte) {m k : Word}
    (hm : m = f ++ ((0 : Nibble) ++ nn : BitVec 12))
    (hk : k = (0xF : Nibble) ++ ((0 : Nibble) ++ (0xFF : Byte) : BitVec 12)) :
    rowMatches (wordXNN f x nn) (m, k) = true := by
  subst hm hk
  have hf : f &&& 0xF = f := BitVec.and_allOnes
  have hn : nn &&& 0xFF = nn := BitVec.and_allOnes
  simp only [rowMatches, wordXNN]
  rw [BitVec.and_append, BitVec.and_append, hf, hn]
  simp

/-- A mask of the family nibble and the low nibble. -/
theorem rowMatches_lowNibble (f : Nibble) (x y : VReg) (n : Nibble) {m k : Word}
    (hm : m = f ++ ((0 : Nibble) ++ ((0 : Nibble) ++ n : BitVec 8) : BitVec 12))
    (hk : k = (0xF : Nibble) ++ ((0 : Nibble) ++ ((0 : Nibble) ++ (0xF : Nibble) : BitVec 8) : BitVec 12)) :
    rowMatches (wordXYN f x y n) (m, k) = true := by
  subst hm hk
  have hf : f &&& 0xF = f := BitVec.and_allOnes
  have hn : n &&& 0xF = n := BitVec.and_allOnes
  simp only [rowMatches, wordXYN]
  rw [BitVec.and_append, BitVec.and_append, BitVec.and_append, hf, hn]
  simp

theorem RowBits.clearDisplay : RowBits.Statement .clearDisplay := by
  unfold RowBits.Statement; decide

theorem RowBits.ret : RowBits.Statement .ret := by
  unfold RowBits.Statement; decide

theorem RowBits.jump (nnn : Addr) : RowBits.Statement (.jump nnn) := 
  rowMatches_family _ _ rfl rfl

theorem RowBits.call (nnn : Addr) : RowBits.Statement (.call nnn) := 
  rowMatches_family _ _ rfl rfl

theorem RowBits.skipEqImm (x : VReg) (nn : Byte) : RowBits.Statement (.skipEqImm x nn) := 
  rowMatches_family _ _ rfl rfl

theorem RowBits.skipNeImm (x : VReg) (nn : Byte) : RowBits.Statement (.skipNeImm x nn) := 
  rowMatches_family _ _ rfl rfl

theorem RowBits.skipEqReg (x y : VReg) : RowBits.Statement (.skipEqReg x y) := 
  rowMatches_family _ _ rfl rfl

theorem RowBits.loadImm (x : VReg) (nn : Byte) : RowBits.Statement (.loadImm x nn) := 
  rowMatches_family _ _ rfl rfl

theorem RowBits.addImm (x : VReg) (nn : Byte) : RowBits.Statement (.addImm x nn) := 
  rowMatches_family _ _ rfl rfl

theorem RowBits.loadReg (x y : VReg) : RowBits.Statement (.loadReg x y) := 
  rowMatches_lowNibble _ x _ _ rfl rfl

theorem RowBits.orReg (x y : VReg) : RowBits.Statement (.orReg x y) := 
  rowMatches_lowNibble _ x _ _ rfl rfl

theorem RowBits.andReg (x y : VReg) : RowBits.Statement (.andReg x y) := 
  rowMatches_lowNibble _ x _ _ rfl rfl

theorem RowBits.xorReg (x y : VReg) : RowBits.Statement (.xorReg x y) := 
  rowMatches_lowNibble _ x _ _ rfl rfl

theorem RowBits.addReg (x y : VReg) : RowBits.Statement (.addReg x y) := 
  rowMatches_lowNibble _ x _ _ rfl rfl

theorem RowBits.subReg (x y : VReg) : RowBits.Statement (.subReg x y) := 
  rowMatches_lowNibble _ x _ _ rfl rfl

theorem RowBits.shr (x : VReg) : RowBits.Statement (.shr x) := 
  rowMatches_lowNibble _ x _ _ rfl rfl

theorem RowBits.subnReg (x y : VReg) : RowBits.Statement (.subnReg x y) := 
  rowMatches_lowNibble _ x _ _ rfl rfl

theorem RowBits.shl (x : VReg) : RowBits.Statement (.shl x) := 
  rowMatches_lowNibble _ x _ _ rfl rfl

theorem RowBits.skipNeReg (x y : VReg) : RowBits.Statement (.skipNeReg x y) := 
  rowMatches_family _ _ rfl rfl

theorem RowBits.loadI (nnn : Addr) : RowBits.Statement (.loadI nnn) := 
  rowMatches_family _ _ rfl rfl

theorem RowBits.jumpV0 (nnn : Addr) : RowBits.Statement (.jumpV0 nnn) := 
  rowMatches_family _ _ rfl rfl

theorem RowBits.random (x : VReg) (nn : Byte) : RowBits.Statement (.random x nn) := 
  rowMatches_family _ _ rfl rfl

theorem RowBits.draw (x y : VReg) (n : Nat) : RowBits.Statement (.draw x y n) := 
  rowMatches_family _ _ rfl rfl

theorem RowBits.skipKeyPressed (x : VReg) : RowBits.Statement (.skipKeyPressed x) := 
  rowMatches_lowByte _ x _ rfl rfl

theorem RowBits.skipKeyNotPressed (x : VReg) : RowBits.Statement (.skipKeyNotPressed x) := 
  rowMatches_lowByte _ x _ rfl rfl

theorem RowBits.loadFromDT (x : VReg) : RowBits.Statement (.loadFromDT x) := 
  rowMatches_lowByte _ x _ rfl rfl

theorem RowBits.waitKey (x : VReg) : RowBits.Statement (.waitKey x) := 
  rowMatches_lowByte _ x _ rfl rfl

theorem RowBits.loadDT (x : VReg) : RowBits.Statement (.loadDT x) := 
  rowMatches_lowByte _ x _ rfl rfl

theorem RowBits.loadST (x : VReg) : RowBits.Statement (.loadST x) := 
  rowMatches_lowByte _ x _ rfl rfl

theorem RowBits.addI (x : VReg) : RowBits.Statement (.addI x) := 
  rowMatches_lowByte _ x _ rfl rfl

theorem RowBits.loadFont (x : VReg) : RowBits.Statement (.loadFont x) := 
  rowMatches_lowByte _ x _ rfl rfl

theorem RowBits.storeBcd (x : VReg) : RowBits.Statement (.storeBcd x) := 
  rowMatches_lowByte _ x _ rfl rfl

theorem RowBits.storeRegs (x : VReg) : RowBits.Statement (.storeRegs x) := 
  rowMatches_lowByte _ x _ rfl rfl

theorem RowBits.readRegs (x : VReg) : RowBits.Statement (.readRegs x) := 
  rowMatches_lowByte _ x _ rfl rfl

end Sys2Proof.Laws
end

