-- ==== Sys2Proof/Tests/Slice0.lean ====
section
/-! SUPPORT. The model's own tests: one step each, on a small state, the expected results from
`spec/95_test_vectors.md` (the vector's id stands in the comment) or worked out from the rule named; the words
of the decoder written out from `30_encoding.md` R80; and for every obligation with hypotheses a theorem
`witness_<Name>` that shows states and operands which meet them. -/

namespace Sys2Proof.Tests

open Sys2Proof.Machine

/-! ### Building a small state -/

/-- The vectors' inputs of a cycle unless they say otherwise. -/
def quiet : CycleInput := { quit := false, keyEdge := none, tick := false, rand := 0, now := 0 }

/-- The vectors' start: the reset state with the word at 0x300 and PC there. -/
def start (w : Word) : State :=
  { State.reset with
    pc := 0x300, mem := Memory.writeBytes [] 0x300 (bytesOfWord w), inputs := [quiet] }

/-- The cycle's inputs replaced. -/
def presenting (inp : CycleInput) (s : State) : State := { s with inputs := [inp] }

/-- Registers set. -/
def setting (l : List (VReg × Byte)) (s : State) : State := l.foldl (fun s p => s.setReg p.1 p.2) s

/-- Bytes stored. -/
def storing (a : Nat) (bs : List Byte) (s : State) : State := { s with mem := s.mem.writeBytes a bs }

/-- Pixels lit. -/
def lighting (l : List (Fin 32 × Fin 64)) (s : State) : State :=
  { s with fb := l.foldl (fun fb p => fb.toggle p.1 p.2) s.fb }

/-- The state of the next outcome satisfies the condition. -/
def leads (o : Host.Outcome State Fault Refusal) (p : State → Bool) : Bool :=
  match o with
  | .next t => p t
  | .fault _ | .refused _ => false

/-- The pixels of the list are lit, and as many as it has in all. -/
def lit (l : List (Fin 32 × Fin 64)) (s : State) : Bool :=
  l.all (fun p => s.pixel p.1 p.2) &&
    (s.fb.toList.map (fun row => row.toList.countP (fun b => b))).sum == l.length

/-! ### WellFormed -/

theorem test_wellFormed_draw_refuses_16_rows : (Instr.draw 0 1 16).wellFormed = false := by decide

theorem test_wellFormed_draw_admits_15_rows : (Instr.draw 0 1 15).wellFormed = true := by decide

/-! ### Decoding: words written out from the encodings of R80 -/

theorem test_decode_family_0 :
    decodeWord 0b0000000011100000 = some .clearDisplay ∧ decodeWord 0b0000000011101110 = some .ret := by
  decide

theorem test_decode_families_1_to_4 :
    decodeWord 0b0001101010111100 = some (.jump 0xABC) ∧
    decodeWord 0b0010101010111100 = some (.call 0xABC) ∧
    decodeWord 0b0011101000010010 = some (.skipEqImm 0xA 0x12) ∧
    decodeWord 0b0100101000010010 = some (.skipNeImm 0xA 0x12) := by decide

theorem test_decode_register_skips :
    decodeWord 0b0101000100100011 = some (.skipEqReg 1 2) ∧
    decodeWord 0b1001000100100101 = some (.skipNeReg 1 2) := by decide

theorem test_decode_families_6_and_7 :
    decodeWord 0b0110101000000101 = some (.loadImm 0xA 0x05) ∧
    decodeWord 0b0111101000000001 = some (.addImm 0xA 0x01) := by decide

theorem test_decode_family_8 :
    decodeWord 0b1000000100100000 = some (.loadReg 1 2) ∧
    decodeWord 0b1000000100100001 = some (.orReg 1 2) ∧
    decodeWord 0b1000000100100010 = some (.andReg 1 2) ∧
    decodeWord 0b1000000100100011 = some (.xorReg 1 2) ∧
    decodeWord 0b1000000100100100 = some (.addReg 1 2) ∧
    decodeWord 0b1000000100100101 = some (.subReg 1 2) ∧
    decodeWord 0b1000000100100110 = some (.shr 1) ∧
    decodeWord 0b1000000100100111 = some (.subnReg 1 2) ∧
    decodeWord 0b1000000100101110 = some (.shl 1) := by decide

theorem test_decode_families_A_to_D :
    decodeWord 0b1010001000010000 = some (.loadI 0x210) ∧
    decodeWord 0b1011101010111100 = some (.jumpV0 0xABC) ∧
    decodeWord 0b1100010100001111 = some (.random 5 0x0F) ∧
    decodeWord 0b1101101010110000 = some (.draw 0xA 0xB 0) := by decide

theorem test_decode_family_E :
    decodeWord 0b1110010110011110 = some (.skipKeyPressed 5) ∧
    decodeWord 0b1110010110100001 = some (.skipKeyNotPressed 5) := by decide

theorem test_decode_family_F :
    decodeWord 0b1111001100000111 = some (.loadFromDT 3) ∧
    decodeWord 0b1111000100001010 = some (.waitKey 1) ∧
    decodeWord 0b1111001100010101 = some (.loadDT 3) ∧
    decodeWord 0b1111001100011000 = some (.loadST 3) ∧
    decodeWord 0b1111001000011110 = some (.addI 2) ∧
    decodeWord 0b1111001000101001 = some (.loadFont 2) ∧
    decodeWord 0b1111001000110011 = some (.storeBcd 2) ∧
    decodeWord 0b1111001101010101 = some (.storeRegs 3) ∧
    decodeWord 0b1111001001100101 = some (.readRegs 2) := by decide

-- E1 to E3, E9 to E11, E13
theorem test_decode_unknown :
    [0x0000, 0x00E1, 0x01E0, 0x8008, 0x8009, 0x800A, 0x800B, 0x800C, 0x800D, 0x800F, 0xE09F, 0xE0A0,
      0xF000, 0xF008, 0xF1FF, 0xFFFF].all (fun w : Word => decodeWord w == none) = true := by decide

-- L1.1: the high byte comes first
theorem test_decode_byte_order : decode [0x6A, 0x05, 0x7A] = .ok (.loadImm 0xA 5, [0x7A]) := by rfl

theorem test_encode_operands :
    encode (.draw 0xA 0xB 7) = 0xDAB7 ∧ encode (.skipNeReg 1 2) = 0x9120 ∧ encode (.shl 3) = 0x830E ∧
    encode (.storeRegs 0xF) = 0xFF55 ∧ encode (.jumpV0 0x123) = 0xB123 := by decide

/-! ### Fetching and the interface -/

theorem test_withFetchWord_runs :
    leads (step (State.reset.withFetchWord 16 0x6A05)) (fun t => t.reg 0xA == 5 && t.pc == 0x202) = true := by
  decide

-- P8, its second cycle: an empty memory faults
theorem test_unknown_word_faults :
    leads (step { start 0x0000 with pc := 0x202 })
      (fun t => t.faultRecord == some ⟨.unknownInstruction, 0x202, some 0x0000, none⟩ && t.pc == 0x202)
      = true := by decide

-- CF23
theorem test_fetch_out_of_range :
    leads (step { start 0x6001 with pc := 0xFFF })
      (fun t => t.faultRecord == some ⟨.fetchOutOfRange, 0xFFF, none, some 0x1000⟩) = true := by decide

/-! ### Control flow -/

-- CF1
theorem test_ret_underflow :
    leads (step (start 0x00EE))
      (fun t => t.faultRecord == some ⟨.stackUnderflow, 0x300, some 0x00EE, none⟩ && t.pc == 0x300 &&
        t.sp == 0) = true := by decide

-- CF2
theorem test_ret :
    leads (step { start 0x00EE with sp := 3, stack := (Vector.replicate 16 0).set 3 0x3A0 })
      (fun t => t.pc == 0x3A2 && t.sp == 2 && t.stackAt 3 == 0x3A0) = true := by decide

-- CF6
theorem test_jump : leads (step (start 0x1FFF)) (fun t => t.pc == 0xFFF && t.mode == .run) = true := by
  decide

-- CF3
theorem test_call :
    leads (step { start 0x2400 with sp := 14 })
      (fun t => t.sp == 15 && t.stackAt 15 == 0x300 && t.pc == 0x400) = true := by decide

-- CF4
theorem test_call_overflow :
    leads (step { start 0x2400 with sp := 15 })
      (fun t => t.faultRecord == some ⟨.stackOverflow, 0x300, some 0x2400, none⟩ && t.sp == 15) = true := by
  decide

-- CF8, CF9
theorem test_skipEqImm :
    leads (step (setting [(1, 5)] (start 0x3105))) (fun t => t.pc == 0x304) = true ∧
    leads (step (setting [(1, 5)] (start 0x3106))) (fun t => t.pc == 0x302) = true := by decide

-- CF10, CF11
theorem test_skipNeImm :
    leads (step (setting [(1, 5)] (start 0x4105))) (fun t => t.pc == 0x302) = true ∧
    leads (step (setting [(1, 5)] (start 0x4106))) (fun t => t.pc == 0x304) = true := by decide

-- CF13, CF14
theorem test_skipEqReg :
    leads (step (setting [(1, 7), (2, 7)] (start 0x5123))) (fun t => t.pc == 0x304) = true ∧
    leads (step (setting [(1, 7), (2, 8)] (start 0x5120))) (fun t => t.pc == 0x302) = true := by decide

-- CF15, CF16
theorem test_skipNeReg :
    leads (step (setting [(1, 7), (2, 8)] (start 0x9120))) (fun t => t.pc == 0x304) = true ∧
    leads (step (setting [(1, 7), (2, 7)] (start 0x9120))) (fun t => t.pc == 0x302) = true := by decide

-- CF20: the sum does not wrap
theorem test_jumpV0 :
    leads (step (setting [(0, 0xFF), (0xF, 3)] (start 0xBF01))) (fun t => t.pc == 0x1000) = true := by decide

/-! ### Loads and the ALU -/

-- A28
theorem test_loadImm :
    leads (step (start 0x61FF)) (fun t => t.reg 1 == 0xFF && t.pc == 0x302) = true := by decide

-- A29
theorem test_addImm_keeps_VF :
    leads (step (setting [(1, 0xFF), (0xF, 0x55)] (start 0x7101)))
      (fun t => t.reg 1 == 0 && t.reg VF == 0x55) = true := by decide

-- A27
theorem test_loadReg :
    leads (step (setting [(2, 0x9A), (0xF, 0x55)] (start 0x8120)))
      (fun t => t.reg 1 == 0x9A && t.reg 2 == 0x9A && t.reg VF == 0x55) = true := by decide

-- A23, A24, A25
theorem test_bitwise :
    leads (step (setting [(1, 0x0F), (2, 0xF0), (0xF, 0x55)] (start 0x8121)))
      (fun t => t.reg 1 == 0xFF && t.reg VF == 0x55) = true ∧
    leads (step (setting [(1, 0x0F), (2, 0xF0), (0xF, 0x55)] (start 0x8122)))
      (fun t => t.reg 1 == 0x00 && t.reg VF == 0x55) = true ∧
    leads (step (setting [(1, 0x0F), (2, 0xFF), (0xF, 0x55)] (start 0x8123)))
      (fun t => t.reg 1 == 0xF0 && t.reg VF == 0x55) = true := by decide

-- A2
theorem test_addReg_carries :
    leads (step (setting [(1, 0xFF), (2, 1)] (start 0x8124))) (fun t => t.reg 1 == 0 && t.reg VF == 1)
      = true := by decide

-- A31: with x = F the result wins
theorem test_addReg_into_VF :
    leads (step (setting [(0xF, 0xF0), (1, 0x20)] (start 0x8F14))) (fun t => t.reg VF == 0x10) = true := by
  decide

-- A7
theorem test_subReg_borrows :
    leads (step (setting [(1, 3), (2, 5)] (start 0x8125))) (fun t => t.reg 1 == 0xFE && t.reg VF == 0)
      = true := by decide

-- A37: the operand is VF from before
theorem test_subReg_from_VF :
    leads (step (setting [(1, 0), (0xF, 1)] (start 0x81F5))) (fun t => t.reg 1 == 0xFF && t.reg VF == 0)
      = true := by decide

-- A18
theorem test_shr :
    leads (step (setting [(1, 0xFF), (2, 0x10)] (start 0x8126))) (fun t => t.reg 1 == 0x7F && t.reg VF == 1)
      = true := by decide

-- A11, A12
theorem test_subnReg :
    leads (step (setting [(1, 3), (2, 5)] (start 0x8127))) (fun t => t.reg 1 == 2 && t.reg VF == 1) = true ∧
    leads (step (setting [(1, 5), (2, 3)] (start 0x8127))) (fun t => t.reg 1 == 0xFE && t.reg VF == 0)
      = true := by decide

-- A21
theorem test_shl :
    leads (step (setting [(1, 0xFF)] (start 0x810E))) (fun t => t.reg 1 == 0xFE && t.reg VF == 1) = true := by
  decide

-- U2 and A31: the alternative of the parameter VF_ALIAS
theorem test_writeFlagged_flagWins :
    (State.reset.writeFlagged .flagWins VF true 0x10).reg VF = 1 := by decide

-- A40
theorem test_random :
    leads (step (presenting { quiet with rand := 0xA7 } (start 0xC50F))) (fun t => t.reg 5 == 7) = true := by
  decide

/-! ### Index register and memory -/

-- X27
theorem test_loadI : leads (step (start 0xAFFF)) (fun t => t.i == 0xFFF) = true := by decide

-- X2
theorem test_addI :
    leads (step { setting [(2, 0xFE)] (start 0xF21E) with i := 0xF01 })
      (fun t => t.i == 0xFFF && t.reg VF == 0) = true := by decide

-- X4
theorem test_addI_faults :
    leads (step { setting [(2, 0xFF)] (start 0xF21E) with i := 0xFFF })
      (fun t => t.i == 0xFFF && t.faultRecord == some ⟨.indexOutOfRange, 0x300, some 0xF21E, some 0x10FE⟩)
      = true := by decide

-- X8: V2 is not masked
theorem test_loadFont :
    leads (step (setting [(2, 0xFF)] (start 0xF229))) (fun t => t.i == 0x4FB) = true := by decide

-- X16
theorem test_storeBcd :
    leads (step { setting [(2, 0xFF)] (start 0xF233) with i := 0xFFD })
      (fun t => t.mem.read 0xFFD == 2 && t.mem.read 0xFFE == 5 && t.mem.read 0xFFF == 5 && t.i == 0xFFD)
      = true := by decide

-- X17
theorem test_storeBcd_faults :
    leads (step { setting [(2, 0xFF)] (start 0xF233) with i := 0xFFE })
      (fun t => t.mem == (start 0xF233).mem &&
        t.faultRecord == some ⟨.memOutOfRange, 0x300, some 0xF233, some 0x1000⟩) = true := by decide

-- X19
theorem test_storeRegs :
    leads (step { setting [(0, 1), (1, 2), (2, 3), (3, 4), (4, 5)] (start 0xF355) with i := 0x400 })
      (fun t => t.mem.read 0x400 == 1 && t.mem.read 0x403 == 4 && t.mem.read 0x404 == 0 && t.i == 0x400)
      = true := by decide

-- X21
theorem test_storeRegs_faults :
    leads (step { start 0xFF55 with i := 0xFF1 })
      (fun t => t.mode == .faulted && t.mem == (start 0xFF55).mem) = true := by decide

-- X22
theorem test_readRegs :
    leads (step { storing 0x400 [0x11, 0x22, 0x33, 0x44] (setting [(3, 0x99)] (start 0xF265)) with i := 0x400 })
      (fun t => t.reg 0 == 0x11 && t.reg 1 == 0x22 && t.reg 2 == 0x33 && t.reg 3 == 0x99 && t.i == 0x400)
      = true := by decide

-- X25: glyph 0 of the default font
theorem test_readRegs_font :
    leads (step (start 0xF065)) (fun t => t.reg 0 == 0xF0) = true := by decide

/-! ### Display -/

-- DS12, with fewer pixels lit
set_option maxRecDepth 4000 in
theorem test_clearDisplay :
    leads (step (lighting [(0, 0), (31, 63)] (start 0x00E0)))
      (fun t => lit [] t && t.fbUpdate && t.reg VF == 0) = true := by decide

-- DS6
set_option maxRecDepth 4000 in
theorem test_draw_collision :
    leads (step { storing 0x400 [0xF0] (lighting [(0, 2), (0, 9)] (start 0xD011)) with i := 0x400 })
      (fun t => lit [(0, 0), (0, 1), (0, 3), (0, 9)] t && t.reg VF == 1 && t.fbUpdate) = true := by decide

-- the rows and columns of P5: both wrap, and VF is reset
set_option maxRecDepth 4000 in
theorem test_draw_wraps :
    leads (step { storing 0x400 [0xC3, 0x81]
        (setting [(0, 0x3C), (1, 0x1F), (0xF, 7)] (start 0xD012)) with i := 0x400 })
      (fun t => lit [(31, 60), (31, 61), (31, 2), (31, 3), (0, 60), (0, 3)] t && t.reg VF == 0) = true := by
  decide

/-! ### Keys and timers -/

-- T1, T2, T4
theorem test_skipKeyPressed :
    leads (step (presenting { quiet with keyEdge := some 0xA } (setting [(5, 0x0A)] (start 0xE59E))))
      (fun t => t.pc == 0x304) = true ∧
    leads (step (setting [(5, 0x0A)] (start 0xE59E))) (fun t => t.pc == 0x302) = true ∧
    leads (step (presenting { quiet with keyEdge := some 0xA } (setting [(5, 0x1A)] (start 0xE59E))))
      (fun t => t.pc == 0x302) = true := by decide

-- T5, T7, T8
theorem test_skipKeyNotPressed :
    leads (step (setting [(5, 0x0A)] (start 0xE5A1))) (fun t => t.pc == 0x304) = true ∧
    leads (step (presenting { quiet with keyEdge := some 0xA } (setting [(5, 0x0A)] (start 0xE5A1))))
      (fun t => t.pc == 0x302) = true ∧
    leads (step (presenting { quiet with keyEdge := some 0xA } (setting [(5, 0x1A)] (start 0xE5A1))))
      (fun t => t.pc == 0x304) = true := by decide

-- T12: the read comes before the decay
theorem test_loadFromDT :
    leads (step (presenting { quiet with tick := true } { start 0xF307 with dt := 0x3C }))
      (fun t => t.reg 3 == 0x3C && t.dt == 0x3B) = true := by decide

-- T19
theorem test_waitKey_waits :
    leads (step (start 0xF10A)) (fun t => t.mode == .awaitKey && t.awaitX == 1 && t.pc == 0x300) = true := by
  decide

-- T27: key 0 is an edge
theorem test_waitKey_takes_edge :
    leads (step (presenting { quiet with keyEdge := some 0 } (setting [(1, 9)] (start 0xF10A))))
      (fun t => t.reg 1 == 0 && t.pc == 0x302 && t.mode == .run) = true := by decide

-- T22
theorem test_wait_resumes :
    leads (step { presenting { quiet with keyEdge := some 0xC } (start 0xF10A) with
        mode := .awaitKey, awaitX := 1 })
      (fun t => t.reg 1 == 0x0C && t.pc == 0x302 && t.mode == .run) = true := by decide

-- T23, with quit before the wait
theorem test_wait_quits :
    leads (step { presenting { quiet with quit := true, tick := true, keyEdge := some 1 } (start 0xF10A) with
        mode := .awaitKey, awaitX := 1, dt := 2 })
      (fun t => t.mode == .halted && t.dt == 2 && t.reg 1 == 0 && t.pc == 0x300) = true := by decide

-- T14
theorem test_loadDT :
    leads (step (presenting { quiet with tick := true } (setting [(3, 3)] (start 0xF315))))
      (fun t => t.dt == 2) = true := by decide

-- T15, T16
theorem test_loadST :
    leads (step (setting [(3, 5)] (start 0xF318))) (fun t => t.st == 5 && t.toneActive) = true ∧
    leads (step (presenting { quiet with tick := true } (setting [(3, 1)] (start 0xF318))))
      (fun t => t.st == 0 && !t.toneActive) = true := by decide

-- T25: no decay in a cycle that faults
theorem test_no_decay_on_fault :
    leads (step (presenting { quiet with tick := true } { start 0x0000 with dt := 5 }))
      (fun t => t.mode == .faulted && t.dt == 5) = true := by decide

-- R210: a tick stores the time
theorem test_tick_stores_time :
    leads (step (presenting { quiet with tick := true, now := 17000000 } (start 0x6000)))
      (fun t => t.lastDecay == 17000000 && t.dt == 0) = true := by decide

/-! ### Witnesses: the hypotheses of the obligations can be met -/

/-- The state a step leads to. -/
def after (s : State) : State :=
  match step s with
  | .next t => t
  | .fault _ | .refused _ => s

/-- The state an instruction leads to. -/
def afterExec (i : Instr) (s : State) : State :=
  match exec i s with
  | .next t => t
  | .fault _ | .refused _ => s

/-- The default font as the loader's argument. -/
def glyphs : Vector Byte 80 := ⟨font.toArray, by decide⟩

/-- The state a boot makes. -/
def booted (prog : List Byte) : State := { State.reset with mem := bootMemory glyphs prog }

/-- A CORE that waits at `load V1,K`. -/
def waiting : State := { start 0xF10A with mode := .awaitKey, awaitX := 1, dt := 2, st := 3, toneActive := true }

theorem witness_DecoderAgreesWithOpcodeMasks :
    decodeWord 0x8FF7 = some (.subnReg 15 15) ∧ (0x8007, 0xF00F) ∈ opcodeRows ∧
    rowMatches 0x8FF7 (0x8007, 0xF00F) = true := by decide

theorem witness_OnlyUnusedFieldsIgnored :
    decodeWord 0x5120 = some (.skipEqReg 1 2) ∧
    (0x512F : Word) &&& ~~~(Instr.skipEqReg 1 2).ignoredBits =
      0x5120 &&& ~~~(Instr.skipEqReg 1 2).ignoredBits := by decide

theorem witness_DecodeEncodeRoundTrip :
    (Instr.draw 15 15 15).wellFormed = true ∧ decodeWord 0xDFFF = some (.draw 15 15 15) := by decide

theorem witness_ResetState : (0x4F < 0x50) ∧ (0x50 ≤ 0x50) := by decide

/-- The longest program, and the boundaries of the clauses: 79, 0x50, 0x1FF, the program's last byte. -/
theorem witness_BootLoadsFontAndProgram :
    (∃ s, State.boot true glyphs (List.replicate 3584 0x12) = .ready s) ∧
    3583 < (List.replicate 3584 (0x12 : Byte)).length ∧ 79 < 80 ∧ 0x50 ≤ 0x1FF ∧
    3584 < (List.replicate 3585 (0x12 : Byte)).length :=
  ⟨⟨_, by rw [State.boot, if_pos (by rw [List.length_replicate]; decide)]⟩,
    by rw [List.length_replicate]; decide, by decide, by decide, by rw [List.length_replicate]; decide⟩

theorem witness_InvariantAtBoot : State.boot true glyphs [0x12, 0x00] = .ready (booted [0x12, 0x00]) := by
  rfl

/-- A state that waits for a key satisfies the invariant, and its step answers. -/
theorem witness_InvariantKeptByStep : waiting.Inv ∧ step waiting = .next (after waiting) :=
  ⟨{ memCanonical := by decide
     pcBound := by decide
     toneFollows := by decide
     waitsAtKeyWait := by decide
     recordIffFaulted := by decide
     slotsHoldCalls := by decide
     slotZeroUnwritten := by decide
     stoppedSilent := by decide }, rfl⟩

/-- The last address an instruction can be fetched from. -/
theorem witness_StepRunsDecodedInstruction :
    let s := { storing 0xFFE [0x6A, 0x01] (start 0) with pc := 0xFFE }
    s.mode = .run ∧ s.input.quit = false ∧ s.pc.toNat + 1 ≤ 0xFFF ∧
    decode [s.mem.read s.pc.toNat, s.mem.read (s.pc.toNat + 1)] = .ok (.loadImm 0xA 1, []) :=
  ⟨rfl, rfl, by decide, rfl⟩

theorem witness_TerminalModesChangeNothing :
    { start 0 with mode := .halted }.mode = .halted ∧ { start 0 with mode := .faulted }.mode = .faulted := by
  decide

theorem witness_QuitOnlyHalts :
    (presenting { quiet with quit := true } (start 0x6001)).mode = .run ∧
    (presenting { quiet with quit := true } waiting).mode = .awaitKey ∧
    (presenting { quiet with quit := true } waiting).input.quit = true := by decide

/-- Both sides of the boundary. -/
theorem witness_FetchChecksRange :
    { start 0 with pc := 0xFFF }.pc.toNat + 1 > 0xFFF ∧ { start 0 with pc := 0xFFE }.pc.toNat + 1 ≤ 0xFFF ∧
    (start 0).mode = .run ∧ (start 0).input.quit = false := by decide

theorem witness_UnknownWordFaults :
    (start 0x8128).mode = .run ∧ (start 0x8128).input.quit = false ∧
    (start 0x8128).fetch = some 0x8128 ∧ decodeWord 0x8128 = none := by decide

theorem witness_FaultsArePrecise :
    step (start 0x00EE) = .next (after (start 0x00EE)) ∧ (start 0x00EE).mode ≠ .faulted ∧
    (after (start 0x00EE)).mode = .faulted := ⟨rfl, by decide, by decide⟩

theorem witness_FaultRaisedExactlyWhenDue :
    let s := { start 0xFF55 with i := 0xFF1 }
    s.mode = .run ∧ s.input.quit = false ∧ step s = .next (after s) ∧
    s.faultDue = some ⟨.memOutOfRange, 0x300, some 0xFF55, some 0x1000⟩ ∧
    (start 0x6001).faultDue = none := ⟨rfl, rfl, rfl, by decide, by decide⟩

/-- One state with a tick and one without. -/
theorem witness_TimersMoveOnlyByGateAndLoads :
    let s := presenting { quiet with tick := true } (setting [(3, 3)] (start 0xF315))
    s.mode.terminal = false ∧ s.input.quit = false ∧ step s = .next (after s) ∧
    (after s).mode ≠ .faulted ∧ s.input.tick = true ∧ waiting.mode.terminal = false ∧
    waiting.input.quit = false ∧ step waiting = .next (after waiting) ∧ (after waiting).mode ≠ .faulted ∧
    waiting.input.tick = false :=
  ⟨rfl, rfl, rfl, by decide, rfl, rfl, rfl, rfl, by decide, rfl⟩

theorem witness_ToneFollowsSoundTimer :
    waiting.toneActive = (waiting.st != 0) ∧ step waiting = .next (after waiting) := ⟨by decide, rfl⟩

/-- One nanosecond too early for a decay. -/
theorem witness_NoDecayBeforePeriod :
    let s := presenting { quiet with now := 16666666 } waiting
    HostKeepsGate s ∧
    Config.timerHz * s.input.now < Config.timeUnitsPerSecond + Config.timerHz * s.lastDecay ∧
    step s = .next (after s) ∧ (∀ x, s.nextInstr ≠ some (.loadDT x)) :=
  ⟨by unfold HostKeepsGate; decide, by decide, rfl, by
    have h : (presenting { quiet with now := 16666666 } waiting).nextInstr = some (.waitKey 1) := by decide
    simp [h]⟩

/-- A run of one cycle with one decay. -/
theorem witness_DecaysPacedBySixtyHertz :
    let s := presenting { quiet with tick := true, now := 16666667 } waiting
    GatedRun s (after s) 1 := by
  intro s
  have h := GatedRun.next (GatedRun.start s) (u := after s) (by unfold HostKeepsGate; decide) rfl
  rwa [if_pos (by decide)] at h

set_option maxRecDepth 4000 in
theorem witness_FramebufferWrittenOnlyByDisplay :
    let s := storing 0x000 [0x80] (start 0xD121)
    step s = .next (after s) ∧ (after s).pixel 0 0 ≠ s.pixel 0 0 := ⟨rfl, by decide⟩

theorem witness_RenderPulsedOncePerDisplayInstruction :
    (start 0x00E0).mode.terminal = false ∧ step (start 0x00E0) = .next (after (start 0x00E0)) ∧
    (after (start 0x00E0)).fbUpdate = true := ⟨rfl, rfl, rfl⟩

theorem witness_MemoryWrittenOnlyByStores :
    let s := { setting [(2, 9)] (start 0xF233) with i := 0xFFD }
    s.mem.wf ∧ step s = .next (after s) ∧ (after s).mem.read 0xFFF ≠ s.mem.read 0xFFF :=
  ⟨by decide, rfl, by decide⟩

/-- A call and a return that move SP, and a slot written. -/
theorem witness_StackMovedOnlyByCallAndReturn :
    let s := { start 0x2400 with sp := 14 }
    let r := { start 0x00EE with sp := 1 }
    step s = .next (after s) ∧ (after s).sp ≠ s.sp ∧ (after s).stackAt 15 ≠ s.stackAt 15 ∧
    step r = .next (after r) ∧ (after r).sp ≠ r.sp := ⟨rfl, by decide, by decide, rfl, by decide⟩

theorem witness_IndexWrittenOnlyByThree :
    step (start 0xAFFF) = .next (after (start 0xAFFF)) ∧ (after (start 0xAFFF)).i ≠ (start 0xAFFF).i :=
  ⟨rfl, by decide⟩

/-- A destination, a flag, and the destination of a wait. -/
theorem witness_RegistersWrittenOnlyAsDestinationOrFlag :
    let s := setting [(1, 0xFF), (2, 2)] (start 0x8124)
    let w := presenting { quiet with keyEdge := some 0xC } waiting
    step s = .next (after s) ∧ (after s).reg 1 ≠ s.reg 1 ∧ (after s).reg VF ≠ s.reg VF ∧
    step w = .next (after w) ∧ (after w).reg 1 ≠ w.reg 1 :=
  ⟨rfl, by decide, by decide, rfl, by decide⟩

theorem witness_KeyEdgeReachesOnlyKeyInstructions :
    (start 0x6001).inputs = quiet :: [] ∧ (start 0x6001).mode = .run ∧
    (start 0x6001).nextInstr = some (.loadImm 0 1) ∧ (Instr.loadImm 0 1).readsKey = false := by decide

theorem witness_TickReachesOnlyTimers :
    let s' := { waiting with inputs := { quiet with tick := true, now := 5 } :: [] }
    waiting.mode.terminal = false ∧ waiting.inputs = quiet :: [] ∧ step waiting = .next (after waiting) ∧
    step s' = .next (after s') := ⟨rfl, rfl, rfl, rfl⟩

theorem witness_RandomByteReachesOnlyRandom :
    waiting.mode.terminal = false ∧ waiting.inputs = quiet :: [] ∧
    waiting.nextInstr = some (.waitKey 1) ∧ (Instr.waitKey 1).readsRand = false := by decide

/-- L1.4, with a second cycle scheduled. -/
theorem witness_CallReturnRoundTrip :
    let s := { storing 0x400 [0x00, 0xEE] (start 0x2400) with inputs := [quiet, quiet] }
    let t := after s
    s.mode = .run ∧ s.input.quit = false ∧ s.nextInstr = some (.call 0x400) ∧ s.sp ≠ 15 ∧
    step s = .next t ∧ t.input.quit = false ∧ t.nextInstr = some .ret ∧ step t = .next (after t) :=
  ⟨rfl, rfl, by decide, by decide, rfl, rfl, by decide, rfl⟩

/-- All 16 registers at the last address that holds them. -/
theorem witness_StoreThenReadRestoresRegisters :
    let s := { start 0 with i := 0xFF0 }
    let t := afterExec (.storeRegs 15) s
    s.mem.wf ∧ s.i.toNat + (15 : VReg).val ≤ 0xFFF ∧ exec (.storeRegs 15) s = .next t ∧
    exec (.readRegs 15) t = .next (afterExec (.readRegs 15) t) :=
  ⟨by decide, by decide, rfl, rfl⟩

/-- P9: the word stored stands at the next PC. -/
theorem witness_StoreIsSeenByNextFetch :
    let s := { start 0xF155 with i := 0x302 }
    let t := afterExec (.storeRegs 1) s
    s.mem.wf ∧ s.i.toNat + (1 : VReg).val ≤ 0xFFF ∧ exec (.storeRegs 1) s = .next t ∧
    (1 : VReg).val = (0 : VReg).val + 1 ∧ t.pc.toNat = s.i.toNat + (0 : VReg).val :=
  ⟨by decide, by decide, rfl, by decide, by decide⟩

theorem witness_ReturnResumesAfterCall :
    { start 0x00EE with sp := 1 }.sp ≠ 0 ∧ (start 0x00EE).sp = 0 := by decide

theorem witness_CallPushesOwnAddress :
    let s := { start 0x2400 with pc := 0xFFE, sp := 14 }
    let f := { start 0x2400 with pc := 0xFFE, sp := 15 }
    s.pc.toNat ≤ 0xFFE ∧ s.sp ≠ 15 ∧ f.pc.toNat ≤ 0xFFE ∧ f.sp = 15 := by decide

theorem witness_RegisterSkipsTestTheirCondition : 15 < 16 := by decide

/-- The greatest sum that is in range, and the least that is not. -/
theorem witness_FontAddressAndIndexAdd :
    let s := { setting [(2, 0xFE)] (start 0xF21E) with i := 0xF01 }
    let f := { setting [(2, 0xFE)] (start 0xF21E) with i := 0xF02 }
    s.i.toNat + (s.reg 2).toNat ≤ 0xFFF ∧ f.i.toNat + (f.reg 2).toNat > 0xFFF := by decide

theorem witness_AddSetsCarry : (1 : VReg) ≠ VF := by decide

theorem witness_SubtractionsSetNoBorrow : (14 : VReg) ≠ VF := by decide

theorem witness_ShiftsSetBitShiftedOut : (0 : VReg) ≠ VF ∧ 15 < 16 := by decide

theorem witness_StoreBcdWritesDigits :
    { start 0 with i := 0xFFD }.mem.wf ∧ { start 0 with i := 0xFFD }.i.toNat + 2 ≤ 0xFFF := by decide

theorem witness_StoreRegsWritesRegisters :
    { start 0 with i := 0xFF0 }.mem.wf ∧ { start 0 with i := 0xFF0 }.i.toNat + (15 : VReg).val ≤ 0xFFF ∧
    (15 : VReg) ≤ 15 := by decide

theorem witness_ReadRegsLoadsRegisters :
    { start 0 with i := 0xFFF }.i.toNat + (0 : VReg).val ≤ 0xFFF ∧ (0 : VReg) ≤ 0 := by decide

/-- The least I at which each of the four faults. -/
theorem witness_MemoryInstructionsFaultOutOfRange :
    { start 0 with i := 0xFF2 }.i.toNat + 15 - 1 > 0xFFF ∧ { start 0 with i := 0xFFE }.i.toNat + 3 - 1 > 0xFFF ∧
    { start 0 with i := 0xFF1 }.i.toNat + ((15 : VReg).val + 1) - 1 > 0xFFF := by decide

theorem witness_DrawXorsTheWrappedSprite :
    15 < 16 ∧ { start 0 with i := 0xFF1 }.i.toNat + 15 ≤ 0x1000 ∧
    { start 0 with i := 0xFFF }.i.toNat + 0 ≤ 0x1000 := by decide

/-- L1.6: two identical draws of 0xFF on a clear screen. -/
theorem witness_SecondDrawRestoresFramebuffer :
    let s := storing 0x000 [0xFF] (start 0xD011)
    let t := afterExec (.draw 0 1 1) s
    s.i.toNat + 1 ≤ 0x1000 ∧ exec (.draw 0 1 1) s = .next t ∧ t.fb = t.fb ∧ t.i = s.i ∧ t.reg 0 = s.reg 0 ∧
    t.reg 1 = s.reg 1 ∧ (∀ k, k < 1 → t.mem.read (s.i.toNat + k) = s.mem.read (s.i.toNat + k)) ∧
    exec (.draw 0 1 1) t = .next (afterExec (.draw 0 1 1) t) ∧
    (∀ row col, s.spriteCovers 0 1 1 row col = true → s.pixel row col = false) :=
  ⟨by decide, rfl, rfl, rfl, by decide, by decide, fun _ _ => rfl, rfl,
    fun row col _ => Framebuffer.pixel_clear row col⟩

/-- The other case of the same clause (log 15), with R188's own sprite: its 8 pixels were lit before the first
draw, so after it the screen is clear. From there R188's quoted example gives VF = 0 for the same draw, as R184
does, where R188's last sentence gives 1. -/
theorem witness_SecondDrawRestoresFramebuffer_lit :
    let s := lighting ([0, 1, 2, 3, 4, 5, 6, 7].map (0, ·)) (storing 0x000 [0xFF] (start 0xD011))
    let t := afterExec (.draw 0 1 1) s
    exec (.draw 0 1 1) s = .next t ∧ exec (.draw 0 1 1) t = .next (afterExec (.draw 0 1 1) t) ∧
    s.spriteCovers 0 1 1 0 0 = true ∧ s.pixel 0 0 = true ∧ t.reg VF = 1 ∧ t.fb = Framebuffer.clear ∧
    (afterExec (.draw 0 1 1) t).reg VF = 0 :=
  ⟨rfl, rfl, by decide, by decide, by decide, by decide, by decide⟩

theorem witness_KeyWaitTakesEdgeOrWaits :
    (presenting { quiet with keyEdge := some 0xF } (start 0xF10A)).input.keyEdge = some 0xF ∧
    (start 0xF10A).input.keyEdge = none := by decide

/-- Quit; an edge with a tick; neither. -/
theorem witness_WaitingCycleTakesEdge :
    let q := presenting { quiet with quit := true } waiting
    let e := presenting { quiet with keyEdge := some 0, tick := true } waiting
    q.mode = .awaitKey ∧ q.input.quit = true ∧ e.mode = .awaitKey ∧ e.input.quit = false ∧
    e.input.keyEdge = some 0 ∧ e.input.tick = true ∧ waiting.input.quit = false ∧
    waiting.input.keyEdge = none ∧ waiting.input.tick = false := by decide

end Sys2Proof.Tests
end

section
/-! PROOFS. The obligations about the whole state (`10_state.md`). The invariant (R38) is kept by each phase
of a cycle (its start, quit, a fault, the instruction, the key wait, its end), and a step is a sequence of
phases. The frames of a step come from one lemma, `step_frame`. -/

namespace Sys2Proof.Machine

/-! ### Accessors through the parts of the state they read -/

/-- The instruction at PC depends on PC and memory alone. -/
theorem State.nextInstr_eq_of_pc_mem {s t : State} (hpc : t.pc = s.pc) (hmem : t.mem = s.mem) :
    t.nextInstr = s.nextInstr := by
  simp only [State.nextInstr, State.fetch, State.currentWord, hpc, hmem]

/-- Where an instruction stands at PC, PC is at most 0xFFE (R101). -/
theorem State.pc_le_of_nextInstr {s : State} {i : Instr} (h : s.nextInstr = some i) :
    s.pc.toNat ≤ 0xFFE := by
  obtain ⟨w, hfetch, -⟩ := State.nextInstr_eq_some.mp h
  have := (State.fetch_eq_some.mp hfetch).1
  omega

theorem State.stackAt_eq_of_stack {s t : State} (h : t.stack = s.stack) (k : BitVec 4) :
    t.stackAt k = s.stackAt k := by
  simp only [State.stackAt, h]

theorem State.pixel_eq_of_fb {s t : State} (h : t.fb = s.fb) (row : Fin 32) (col : Fin 64) :
    t.pixel row col = s.pixel row col := by
  simp only [State.pixel, h]

@[simp] theorem State.finishCycle_reg (u : State) (inp : CycleInput) (r : VReg) :
    (u.finishCycle inp).reg r = u.reg r :=
  State.reg_eq_of_v (State.finishCycle_v u inp) r

@[simp] theorem State.finishCycle_stackAt (u : State) (inp : CycleInput) (k : BitVec 4) :
    (u.finishCycle inp).stackAt k = u.stackAt k :=
  State.stackAt_eq_of_stack (State.finishCycle_stack u inp) k

@[simp] theorem State.finishCycle_nextInstr (u : State) (inp : CycleInput) :
    (u.finishCycle inp).nextInstr = u.nextInstr :=
  State.nextInstr_eq_of_pc_mem (State.finishCycle_pc u inp) (State.finishCycle_mem u inp)

/-- The timer gate keeps the tone with ST: a decay to 0 stops it (R211). -/
theorem State.finishCycle_tone {u : State} (h : u.toneActive = (u.st != 0)) (inp : CycleInput) :
    (u.finishCycle inp).toneActive = ((u.finishCycle inp).st != 0) := by
  unfold State.finishCycle
  split
  · exact h
  · cases htick : inp.tick with
    | false => simpa [htick] using h
    | true =>
      by_cases hdecay : decay u.st = 0#8
      · simp [htick, hdecay]
      · have hst : u.st ≠ 0#8 := fun h0 => hdecay (by simp [decay, h0])
        simp [htick, hdecay, h, hst, bne]

/-! ### The invariant at reset and boot -/

/-- The state of reset with any canonical memory satisfies the invariant. -/
theorem State.inv_reset_mem {m : Memory} (hm : m.wf) : { State.reset with mem := m }.Inv where
  memCanonical := hm
  pcBound := by simp [State.reset]
  toneFollows := rfl
  waitsAtKeyWait h := nomatch h
  recordIffFaulted := rfl
  slotsHoldCalls k := by simp [State.stackAt, State.reset]
  slotZeroUnwritten := rfl
  stoppedSilent _ := rfl

/-! ### The phases of a cycle keep the invariant -/

namespace State.Inv

variable {s : State}

/-- Outside FAULTED there is no fault record (R33). -/
theorem no_record (h : s.Inv) (hm : s.mode ≠ .faulted) : s.faultRecord = none := by
  rw [← Option.isNone_iff_eq_none, ← Option.not_isSome, h.recordIffFaulted]
  simpa using hm

theorem beginCycle (h : s.Inv) : s.beginCycle.Inv :=
  { h with stoppedSilent := fun _ => rfl }

theorem endCycle (h : s.Inv) : s.endCycle.Inv := { h with }

theorem finishCycle (h : s.Inv) (inp : CycleInput) : (s.finishCycle inp).Inv where
  memCanonical := by simpa using h.memCanonical
  pcBound := by simpa using h.pcBound
  toneFollows := State.finishCycle_tone h.toneFollows inp
  waitsAtKeyWait := by simpa using h.waitsAtKeyWait
  recordIffFaulted := by simpa using h.recordIffFaulted
  slotsHoldCalls := by simpa using h.slotsHoldCalls
  slotZeroUnwritten := by simpa using h.slotZeroUnwritten
  stoppedSilent := by simpa using h.stoppedSilent

/-- Quit in a mode that is not terminal: there is no record yet (R216). -/
theorem quitCycle (h : s.Inv) (hm : s.mode.terminal = false) (hup : s.fbUpdate = false) :
    s.quitCycle.Inv :=
  have hrec : s.faultRecord = none := h.no_record fun hf => by simp [hf, Mode.terminal] at hm
  { h with
    waitsAtKeyWait := fun hw => nomatch hw
    recordIffFaulted := by simp [hrec]
    stoppedSilent := fun _ => hup }

/-- A fault before any render pulse of its cycle (R232). -/
theorem enterFault (h : s.Inv) (hup : s.fbUpdate = false) (c : FaultCode) (w : Option Word)
    (n : Option PcVal) : (s.enterFault c w n).Inv :=
  { h with
    waitsAtKeyWait := fun hw => nomatch hw
    recordIffFaulted := rfl
    stoppedSilent := fun _ => hup }

/-- A wait is entered at its own instruction (R204). -/
theorem enterWait (h : s.Inv) (hm : s.mode = .run) {x : VReg}
    (hi : s.nextInstr = some (.waitKey x)) : (s.enterWait x).Inv :=
  { h with
    waitsAtKeyWait := fun _ => hi
    recordIffFaulted := by simp [h.no_record (by simp [hm])]
    stoppedSilent := fun ht => nomatch ht }

/-- A waiting CORE stands at its key wait, so PC + 2 stays in bounds (R205). -/
theorem resumeWait (h : s.Inv) (hm : s.mode = .awaitKey) (inp : CycleInput) :
    (s.resumeWait inp).Inv := by
  rcases State.resumeWait_cases s inp with ⟨k, -, hs⟩ | ⟨-, hs⟩
  · have hpc := State.pc_le_of_nextInstr (h.waitsAtKeyWait hm)
    rw [hs]
    exact
      { memCanonical := h.memCanonical
        pcBound := show (s.pc + 2).toNat ≤ 0x10FE by bv_omega
        toneFollows := h.toneFollows
        waitsAtKeyWait := fun hw => nomatch hw
        recordIffFaulted := by simp [h.no_record (by simp [hm])]
        slotsHoldCalls := h.slotsHoldCalls
        slotZeroUnwritten := h.slotZeroUnwritten
        stoppedSilent := fun ht => nomatch ht }
  · rwa [hs]

end State.Inv

/-! ### Instructions keep the invariant -/

namespace ExecFrame

variable {ins : Instr} {s u : State}

/-- Stores write canonically (R57). -/
theorem mem_wf (f : ExecFrame ins s u) (h : s.mem.wf) : u.mem.wf := by
  rcases f.memory with hm | ⟨x, -, -, hm⟩ | ⟨x, -, -, hm⟩ <;> rw [hm]
  · exact h
  · exact Memory.writeBytes_wf h _ _
  · exact Memory.writeBytes_wf h _ _

/-- A target is at most 0x10FE, and a sequential PC at most 0x1002 (R22). -/
theorem pc_le (f : ExecFrame ins s u) (hpc : s.pc.toNat ≤ 0xFFE) : u.pc.toNat ≤ 0x10FE := by
  rcases f.nextPc with h | h | h | h
  · bv_omega
  · bv_omega
  · bv_omega
  · exact h

theorem tone (f : ExecFrame ins s u) (h : s.toneActive = (s.st != 0)) :
    u.toneActive = (u.st != 0) := by
  rcases f.sound with ⟨hst, ht⟩ | ⟨x, -, hst, ht⟩
  · rw [ht, hst, h]
  · rw [ht, hst]

/-- A slot keeps its value, or it is the one above SP and takes PC; slot 0 is above no SP a call
accepts (R110). -/
theorem slot_cases (f : ExecFrame ins s u) (k : BitVec 4) :
    u.stackAt k = s.stackAt k ∨ k ≠ 0 ∧ u.stackAt k = s.pc.setWidth 12 := by
  rcases f.stack with ⟨-, hs⟩ | ⟨_, -, hsp, -, hs⟩ | ⟨-, -, -, hs⟩
  · exact .inl (State.stackAt_eq_of_stack hs k)
  · rw [State.stackAt_eq_of_stack hs k, State.stackAt_pushPc]
    by_cases hk : k = s.sp + 1
    · exact .inr ⟨by bv_omega, if_pos hk⟩
    · exact .inl (if_neg hk)
  · exact .inl (State.stackAt_eq_of_stack hs k)

end ExecFrame

/-- The instruction fetched in mode RUN keeps the invariant. -/
theorem State.Inv.execInstr {ins : Instr} {s u : State} (h : s.Inv) (hm : s.mode = .run)
    (hup : s.fbUpdate = false) (hi : s.nextInstr = some ins) (he : exec ins s = .next u) : u.Inv := by
  have f := exec_frame he
  have hpc := State.pc_le_of_nextInstr hi
  rcases f.mode with ⟨hmode, -, hrec⟩ | ⟨c, n, rfl⟩ | ⟨x, rfl, rfl⟩
  · rw [hm] at hmode
    exact
      { memCanonical := f.mem_wf h.memCanonical
        pcBound := f.pc_le hpc
        toneFollows := f.tone h.toneFollows
        waitsAtKeyWait := by simp [hmode]
        recordIffFaulted := by simp [hmode, hrec, h.no_record, hm]
        slotsHoldCalls := fun k => by
          rcases f.slot_cases k with hk | ⟨-, hk⟩ <;> rw [hk]
          · exact h.slotsHoldCalls k
          · rw [BitVec.toNat_setWidth]; omega
        slotZeroUnwritten := by
          rcases f.slot_cases 0 with hk | ⟨hne, -⟩
          · rw [hk, h.slotZeroUnwritten]
          · exact absurd rfl hne
        stoppedSilent := by simp [hmode, Mode.terminal] }
  · exact h.enterFault hup c _ n
  · exact h.enterWait hm hi

/-! ### What a cycle may write -/

/-- What a cycle that executes no instruction may change of the CORE's registers, stack, screen and
memory: the register a key wait fills, and nothing else. -/
structure IdleFrame (s t : State) : Prop where
  regs : ∀ r, t.reg r = s.reg r ∨ s.mode = .awaitKey ∧ r = s.awaitX
  index : t.i = s.i
  sp : t.sp = s.sp
  stack : t.stack = s.stack
  fb : t.fb = s.fb
  mem : t.mem = s.mem

/-- A cycle of the key wait writes the awaited register at most (R205). -/
theorem IdleFrame.ofWait {s : State} (hm : s.mode = .awaitKey) (inp : CycleInput) :
    IdleFrame s ((s.beginCycle.resumeWait inp).finishCycle inp) := by
  rcases State.resumeWait_cases s.beginCycle inp with ⟨k, -, hs⟩ | ⟨-, hs⟩ <;> rw [hs]
  · refine ⟨fun r => ?_, by simp, by simp, by simp, by simp, by simp⟩
    by_cases hr : r = s.awaitX
    · exact .inr ⟨hm, hr⟩
    · exact .inl ((State.finishCycle_reg _ _ r).trans ((State.reg_takeKey _ _ _ r).trans (if_neg hr)))
  · exact ⟨fun r => .inl (by simp), by simp, by simp, by simp, by simp, by simp⟩

/-- A step executes the instruction at PC, in mode RUN without quit and within the instruction's frame,
or it is idle. -/
theorem step_frame {s t : State} (h : step s = .next t) :
    (s.mode = .run ∧ s.input.quit = false ∧ ∃ i u, s.nextInstr = some i ∧
      ExecFrame i s.beginCycle u ∧ t = u.finishCycle s.input) ∨ IdleFrame s t := by
  rcases step_cases h with ⟨-, rfl⟩ | ⟨-, -, rfl⟩ | ⟨hm, -, rfl⟩ | ⟨-, -, -, rfl⟩ |
    ⟨-, -, _, -, -, rfl⟩ | ⟨hm, hq, i, u, hi, he, rfl⟩
  · exact .inr ⟨fun _ => .inl rfl, rfl, rfl, rfl, rfl, rfl⟩
  · exact .inr ⟨fun _ => .inl rfl, rfl, rfl, rfl, rfl, rfl⟩
  · exact .inr (.ofWait hm s.input)
  · exact .inr ⟨fun _ => .inl rfl, rfl, rfl, rfl, rfl, rfl⟩
  · exact .inr ⟨fun _ => .inl rfl, rfl, rfl, rfl, rfl, rfl⟩
  · exact .inl ⟨hm, hq, i, u, hi, exec_frame he, rfl⟩

/-! ### The obligations -/

/-- Settles O11: a step is a sequence of phases, and each keeps the invariant. -/
theorem invariantKeptByStep : Obligations.InvariantKeptByStep := by
  intro s t hinv h
  have hb := hinv.beginCycle
  rcases step_cases h with ⟨-, rfl⟩ | ⟨hm, -, rfl⟩ | ⟨hm, -, rfl⟩ | ⟨-, -, -, rfl⟩ |
    ⟨-, -, w, -, -, rfl⟩ | ⟨hm, -, i, u, hi, he, rfl⟩
  · exact hinv
  · exact (hb.quitCycle hm rfl).endCycle
  · exact (hb.resumeWait hm s.input).finishCycle s.input
  · exact (hb.enterFault rfl _ _ _).endCycle
  · exact (hb.enterFault rfl _ _ _).endCycle
  · exact (hb.execInstr hm rfl hi he).finishCycle s.input

/-- Settles O10: a boot is the reset state with canonical memory. -/
theorem invariantAtBoot : Obligations.InvariantAtBoot := by
  intro loadOk glyphs prog s h
  unfold State.boot at h
  split at h
  · cases h
    exact State.inv_reset_mem (Memory.bootMemory_wf glyphs prog)
  · cases h

/-- Settles O24: an idle cycle keeps the framebuffer, and so does every instruction but the two. -/
theorem framebufferWrittenOnlyByDisplay : Obligations.FramebufferWrittenOnlyByDisplay := by
  intro s t row col h hne
  rcases step_frame h with ⟨hm, hq, i, u, hi, f, rfl⟩ | f
  · rcases f.display with ⟨hfb, -, -⟩ | ⟨hins, -, -⟩
    · exact absurd (State.pixel_eq_of_fb (by simpa using hfb) row col) hne
    · refine ⟨hm, hq, ?_⟩
      rcases hins with rfl | ⟨x, y, n, rfl⟩
      · exact .inl hi
      · exact .inr ⟨x, y, n, hi⟩
  · exact absurd (State.pixel_eq_of_fb f.fb row col) hne

/-- Settles O28: an idle cycle keeps I, and so does every instruction but the three. -/
theorem indexWrittenOnlyByThree : Obligations.IndexWrittenOnlyByThree := by
  intro s t h hne
  rcases step_frame h with ⟨-, -, i, u, hi, f, rfl⟩ | f
  · rcases f.index with hidx | ⟨a, rfl⟩ | ⟨x, rfl⟩ | ⟨x, rfl⟩
    · exact absurd (by simpa using hidx) hne
    · exact .inl ⟨a, hi⟩
    · exact .inr (.inl ⟨x, hi⟩)
    · exact .inr (.inr ⟨x, hi⟩)
  · exact absurd f.index hne

/-- Settles O29: an instruction writes registers within its frame, an idle cycle the awaited one. -/
theorem registersWrittenOnlyAsDestinationOrFlag :
    Obligations.RegistersWrittenOnlyAsDestinationOrFlag := by
  intro s t r h hne
  rcases step_frame h with ⟨hm, -, i, u, hi, f, rfl⟩ | f
  · rcases f.regs r with hr | hw
    · exact absurd (by simpa using hr) hne
    · exact .inl ⟨hm, i, hi, hw⟩
  · rcases f.regs r with hr | hw
    · exact absurd hr hne
    · exact .inr hw

/-- Settles O7: the fields by definition; memory lists no cell, so it reads as the font and zeros. -/
theorem resetState : Obligations.ResetState := by
  refine ⟨fun r => ?_, rfl, rfl, rfl, fun k => ?_, rfl, rfl, Framebuffer.pixel_clear, rfl, rfl, rfl, rfl,
    rfl, fun a _ => rfl, fun a ha => Memory.unlisted_eq_zero ha⟩
  · simp [State.reg, State.reset]
  · simp [State.stackAt, State.reset]

/-- Settles O9: the empty memory of reset is canonical. -/
theorem invariantAtReset : Obligations.InvariantAtReset :=
  State.inv_reset_mem Memory.reset_wf

end Sys2Proof.Machine
end

section
/-! PROOFS. The obligations about memory (`20_memory.md`). -/

namespace Sys2Proof.Machine

/-- An address that reads otherwise after bytes are written is one of those written. -/
theorem Memory.written_of_read_writeBytes_ne {m : Memory} (h : m.wf) {a : Nat} {bs : List Byte}
    (hr : a + bs.length ≤ 0x1000) {b : Nat} (hne : (m.writeBytes a bs).read b ≠ m.read b) :
    a ≤ b ∧ b < a + bs.length := by
  have hin : inBytes a bs.length b ≠ false := fun hb => hne (Memory.read_writeBytes_outside h hr hb)
  simpa [inBytes] using hin

/-- An instruction that touches `count` bytes from I faults with address 0x1000 when they pass 0xFFF
(R52). -/
theorem exec_fault_of_withRange {i : Instr} {s ok : State} {count : Nat}
    (he : exec i s = .next (s.withRange s.i.toNat count ok)) (hr : s.i.toNat + count > 0x1000) :
    exec i s = .next (s.instrFault .memOutOfRange (some 0x1000)) := by
  have hi := s.i.isLt
  rw [he, State.withRange_fault (by omega) hr]

/-- Settles O26: an idle cycle keeps memory, and so does every instruction but the two stores, which
write at the bytes from I on. -/
theorem memoryWrittenOnlyByStores : Obligations.MemoryWrittenOnlyByStores := by
  intro s t a hwf h hne
  rcases step_frame h with ⟨-, -, i, u, hi, f, rfl⟩ | f
  · rw [State.finishCycle_mem] at hne
    rcases f.memory with hmem | ⟨x, rfl, hr, hmem⟩ | ⟨x, rfl, hr, hmem⟩ <;> rw [hmem] at hne
    · exact absurd rfl hne
    · obtain ⟨hlo, hhi⟩ := Memory.written_of_read_writeBytes_ne hwf hr hne
      exact .inl ⟨x, hi, hlo, Nat.le_of_lt_succ hhi⟩
    · obtain ⟨hlo, hhi⟩ := Memory.written_of_read_writeBytes_ne hwf (by simpa using hr) hne
      rw [regsUpTo_length] at hhi
      exact .inr ⟨x, hi, hlo, Nat.le_of_lt_succ hhi⟩
  · exact absurd (by rw [f.mem]) hne

/-- Settles O53: each of the four checks its range before it touches anything. -/
theorem memoryInstructionsFaultOutOfRange : Obligations.MemoryInstructionsFaultOutOfRange := by
  intro i count x y s hi hr
  have hr' : s.i.toNat + count > 0x1000 := by omega
  rcases hi with rfl | ⟨rfl, rfl⟩ | ⟨rfl, rfl⟩ | ⟨rfl, rfl⟩ <;> exact exec_fault_of_withRange rfl hr'

end Sys2Proof.Machine
end

section
/-! PROOFS. The obligations about the encoding (`30_encoding.md`). A word stands for an instruction exactly
when the instruction is well-formed and its encoding is the word with the ignored bits cleared
(`isWordOf_iff_encode`). A word that matches a row of the opcode map decodes to an instruction of that row,
because the row a word decodes to is fixed by its family and selector (`decodeWord_row_congr`). -/

namespace Sys2Proof

/-! ### Words and their nibbles -/

/-- A word is built of four nibbles exactly when they are its fields (R71). -/
theorem eq_wordXYN_iff {w : Word} {f : Nibble} {x y : VReg} {n : Nibble} :
    w = wordXYN f x y n ↔ fieldFamily w = f ∧ fieldX w = x ∧ fieldY w = y ∧ fieldN w = n := by
  constructor
  · rintro rfl
    simp
  · rintro ⟨rfl, rfl, rfl, rfl⟩
    exact word_eq_nibbles w

/-- A mask acts on each nibble on its own. -/
theorem wordXYN_and (f f' : Nibble) (x x' y y' : VReg) (n n' : Nibble) :
    wordXYN f x y n &&& wordXYN f' x' y' n' =
      wordXYN (f &&& f') (regOf (regBits x &&& regBits x')) (regOf (regBits y &&& regBits y'))
        (n &&& n') := by
  rw [wordXYN, wordXYN, wordXNN_and, BitVec.and_append, wordXYN, regBits_regOf, regBits_regOf]

@[simp] theorem Nibble.and_fifteen (b : Nibble) : b &&& 15#4 = b := BitVec.and_allOnes

@[simp] theorem regBits_zero : regBits 0 = 0#4 := rfl

@[simp] theorem regBits_fifteen : regBits 15 = 15#4 := rfl

@[simp] theorem regOf_zero : regOf 0#4 = 0 := rfl

/-- Clearing `n`, which the register skips ignore (R78). -/
theorem clear_n (w : Word) :
    w &&& ~~~0x000F = wordXYN (fieldFamily w) (fieldX w) (fieldY w) 0 := by
  have hmask : ~~~(0x000F : Word) = wordXYN 0xF 15 15 0 := by decide
  conv_lhs => rw [word_eq_nibbles w, hmask, wordXYN_and]
  simp

/-- Clearing `y`, which the shifts ignore (R78). -/
theorem clear_y (w : Word) :
    w &&& ~~~0x00F0 = wordXYN (fieldFamily w) (fieldX w) 0 (fieldN w) := by
  have hmask : ~~~(0x00F0 : Word) = wordXYN 0xF 15 0 0xF := by decide
  conv_lhs => rw [word_eq_nibbles w, hmask, wordXYN_and]
  simp

theorem clear_none (w : Word) : w &&& ~~~0x0000 = w := BitVec.and_allOnes

/-! ### The words of an instruction, through the encoder -/

theorem exists_wordXYN_n_iff {w : Word} {f : Nibble} {x y : VReg} :
    (∃ n, w = wordXYN f x y n) ↔ wordXYN f x y 0 = w &&& ~~~0x000F := by
  rw [eq_comm (a := wordXYN f x y 0), clear_n]
  simp [eq_wordXYN_iff]

theorem exists_wordXYN_y_iff {w : Word} {f : Nibble} {x : VReg} {n : Nibble} :
    (∃ y, w = wordXYN f x y n) ↔ wordXYN f x 0 n = w &&& ~~~0x00F0 := by
  rw [eq_comm (a := wordXYN f x 0 n), clear_y]
  simp [eq_wordXYN_iff]

/-- The row count of a well-formed `draw` is its own 4-bit field (R73). -/
theorem isWordOf_draw_iff {w : Word} {x y : VReg} {n : Nat} :
    IsWordOf w (.draw x y n) ↔ n < 16 ∧ w = encode (.draw x y n) := by
  constructor
  · rintro ⟨k, rfl, rfl⟩
    exact ⟨k.isLt, by rw [encode, BitVec.ofNat_toNat, BitVec.setWidth_eq]⟩
  · rintro ⟨hn, rfl⟩
    exact ⟨BitVec.ofNat 4 n, (Nat.mod_eq_of_lt hn).symm, rfl⟩

/-- A word stands for an instruction exactly when the instruction is well-formed and the encoder gives the
word with the ignored bits cleared (R73, R78, R82). -/
theorem isWordOf_iff_encode {w : Word} {i : Instr} :
    IsWordOf w i ↔ i.wellFormed = true ∧ encode i = w &&& ~~~i.ignoredBits := by
  cases i
  case skipEqReg | skipNeReg => exact exists_wordXYN_n_iff.trans (and_iff_right rfl).symm
  case shr | shl => exact exists_wordXYN_y_iff.trans (and_iff_right rfl).symm
  case draw x y n =>
    rw [isWordOf_draw_iff, Instr.wellFormed, decide_eq_true_iff, Instr.ignoredBits, clear_none, eq_comm]
  all_goals
    rw [Instr.ignoredBits, clear_none]
    exact eq_comm.trans (and_iff_right rfl).symm

/-- The encoding of a well-formed instruction decodes to it. -/
theorem decodeWord_encode {i : Instr} (h : i.wellFormed = true) : decodeWord (encode i) = some i := by
  have hcanonical : encode i &&& ~~~i.ignoredBits = encode i := by
    cases i
    case skipEqReg | skipNeReg => rw [encode, Instr.ignoredBits, clear_n]; simp
    case shr | shl => rw [encode, Instr.ignoredBits, clear_y]; simp
    all_goals exact clear_none _
  exact decodeWord_eq_some_iff.mpr (isWordOf_iff_encode.mpr ⟨h, hcanonical.symm⟩)

/-! ### Decoding bytes (R70) -/

/-- The decoder takes the first two bytes, and nothing of the rest matters. -/
theorem decode_eq_ok_iff {hi lo : Byte} {rest tail : List Byte} {i : Instr} :
    decode (hi :: lo :: rest) = .ok (i, tail) ↔
      decodeWord (wordOfBytes hi lo) = some i ∧ tail = rest := by
  cases hd : decodeWord (wordOfBytes hi lo) with
  | none => simp [decode, hd]
  | some j => simp [decode, hd, eq_comm]

/-- Decoding the bytes of a word is decoding the word. -/
theorem decode_bytesOfWord {w : Word} {i : Instr} (h : decodeWord w = some i) (rest : List Byte) :
    decode (bytesOfWord w ++ rest) = .ok (i, rest) :=
  decode_eq_ok_iff.mpr ⟨by rw [wordOfBytes_split, h], rfl⟩

/-! ### The opcode map's rows (R80) -/

theorem row_mem_opcodeRows (i : Instr) : i.row ∈ opcodeRows := by
  cases i <;> (rw [Instr.row]; decide)

/-- The row of what family 0x8 decodes to is fixed by `n`. -/
theorem decodeAlu_row (x x' y y' : VReg) (n : Nibble) :
    (decodeAlu x y n).map Instr.row = (decodeAlu x' y' n).map Instr.row := by
  simp only [decodeAlu, apply_ite (Option.map Instr.row), Option.map_some, Option.map_none, Instr.row]

/-- The row of what family 0xE decodes to is fixed by `nn`. -/
theorem decodeKey_row (x x' : VReg) (nn : Byte) :
    (decodeKey x nn).map Instr.row = (decodeKey x' nn).map Instr.row := by
  simp only [decodeKey, apply_ite (Option.map Instr.row), Option.map_some, Option.map_none, Instr.row]

/-- The row of what family 0xF decodes to is fixed by `nn`. -/
theorem decodeMisc_row (x x' : VReg) (nn : Byte) :
    (decodeMisc x nn).map Instr.row = (decodeMisc x' nn).map Instr.row := by
  simp only [decodeMisc, apply_ite (Option.map Instr.row), Option.map_some, Option.map_none, Instr.row]

/-- The row a word decodes to is fixed by its family and the family's selector (R77). -/
theorem decodeWord_row_congr {w v : Word} (hf : fieldFamily w = fieldFamily v)
    (h0 : fieldFamily v = 0x0 → w = v) (hn : fieldFamily v = 0x8 → fieldN w = fieldN v)
    (hnn : fieldFamily v = 0xE ∨ fieldFamily v = 0xF → fieldNN w = fieldNN v) :
    (decodeWord w).map Instr.row = (decodeWord v).map Instr.row := by
  rcases nibble_cases (fieldFamily v) with hv | hv | hv | hv | hv | hv | hv | hv | hv | hv | hv | hv |
    hv | hv | hv | hv
  · rw [h0 hv]
  iterate 7 · simp [decodeWord, hf, hv, Instr.row]
  · simpa [decodeWord, hf, hv, hn hv] using decodeAlu_row _ _ _ _ _
  iterate 5 · simp [decodeWord, hf, hv, Instr.row]
  · simpa [decodeWord, hf, hv, hnn (.inl hv)] using decodeKey_row _ _ _
  · simpa [decodeWord, hf, hv, hnn (.inr hv)] using decodeMisc_row _ _ _

/-- A row's mask covers the family and, in the families that have one, the selector. -/
theorem mask_covers_selector : ∀ row ∈ opcodeRows, fieldFamily row.2 = 0xF ∧
    (fieldFamily row.1 = 0x0 → row.2 = 0xFFFF) ∧ (fieldFamily row.1 = 0x8 → fieldN row.2 = 0xF) ∧
    (fieldFamily row.1 = 0xE ∨ fieldFamily row.1 = 0xF → fieldNN row.2 = 0xFF) := by
  intro row hrow
  fin_cases hrow <;> decide

/-- The fixed bits of a row, with every operand 0, are a word of that row. -/
theorem decodeWord_match_row : ∀ row ∈ opcodeRows, (decodeWord row.1).map Instr.row = some row := by
  intro row hrow
  fin_cases hrow <;> decide

theorem fieldFamily_and (w k : Word) : fieldFamily (w &&& k) = fieldFamily w &&& fieldFamily k :=
  BitVec.extractLsb'_and

theorem fieldN_and (w k : Word) : fieldN (w &&& k) = fieldN w &&& fieldN k :=
  BitVec.extractLsb'_and

theorem fieldNN_and (w k : Word) : fieldNN (w &&& k) = fieldNN w &&& fieldNN k :=
  BitVec.extractLsb'_and

/-- A word that carries the fixed bits of a row decodes to an instruction of that row. -/
theorem decodeWord_row_of_rowMatches {w : Word} {row : Word × Word} (hrow : row ∈ opcodeRows)
    (h : rowMatches w row = true) : (decodeWord w).map Instr.row = some row := by
  obtain ⟨hfam, hfixed, hlow, hbyte⟩ := mask_covers_selector row hrow
  have hw : row.1 = w &&& row.2 := (beq_iff_eq.mp h).symm
  rw [← decodeWord_match_row row hrow]
  apply decodeWord_row_congr
  · rw [hw, fieldFamily_and, hfam]
    exact BitVec.and_allOnes.symm
  · intro h0
    rw [hw, hfixed h0]
    exact BitVec.and_allOnes.symm
  · intro h8
    rw [hw, fieldN_and, hlow h8]
    exact BitVec.and_allOnes.symm
  · intro hEF
    rw [hw, fieldNN_and, hbyte hEF]
    exact BitVec.and_allOnes.symm

open Laws in
/-- The encoder keeps to its row, instruction by instruction. -/
theorem rowMatches_encode (i : Instr) : rowMatches (encode i) i.row = true := by
  cases i
  exacts [RowBits.clearDisplay, RowBits.ret, RowBits.jump _, RowBits.call _, RowBits.skipEqImm _ _,
    RowBits.skipNeImm _ _, RowBits.skipEqReg _ _, RowBits.loadImm _ _, RowBits.addImm _ _,
    RowBits.loadReg _ _, RowBits.orReg _ _, RowBits.andReg _ _, RowBits.xorReg _ _, RowBits.addReg _ _,
    RowBits.subReg _ _, RowBits.shr _, RowBits.subnReg _ _, RowBits.shl _, RowBits.skipNeReg _ _,
    RowBits.loadI _, RowBits.jumpV0 _, RowBits.random _ _, RowBits.draw _ _ _, RowBits.skipKeyPressed _,
    RowBits.skipKeyNotPressed _, RowBits.loadFromDT _, RowBits.waitKey _, RowBits.loadDT _,
    RowBits.loadST _, RowBits.addI _, RowBits.loadFont _, RowBits.storeBcd _, RowBits.storeRegs _,
    RowBits.readRegs _]

/-- No fixed bit is ignored. -/
theorem ignoredBits_outside_mask (i : Instr) : ~~~i.ignoredBits &&& i.row.2 = i.row.2 := by
  cases i <;> (rw [Instr.ignoredBits, Instr.row]; decide)

/-- A decoded word carries the fixed bits of its instruction's row: the encoding does, and the two differ
in ignored bits alone. -/
theorem rowMatches_of_decodeWord {w : Word} {i : Instr} (h : decodeWord w = some i) :
    rowMatches w i.row = true := by
  obtain ⟨-, hencode⟩ := isWordOf_iff_encode.mp (decodeWord_eq_some_iff.mp h)
  have hrow := rowMatches_encode i
  rwa [rowMatches, hencode, BitVec.and_assoc, ignoredBits_outside_mask] at hrow

/-! ### Unknown words, family by family (R79) -/

theorem decodeAlu_eq_none_iff {x y : VReg} {n : Nibble} :
    decodeAlu x y n = none ↔ n.toNat ∈ [0x8, 0x9, 0xA, 0xB, 0xC, 0xD, 0xF] := by
  rcases nibble_cases n with rfl | rfl | rfl | rfl | rfl | rfl | rfl | rfl | rfl | rfl | rfl | rfl | rfl |
    rfl | rfl | rfl <;> simp [decodeAlu]

theorem decodeKey_eq_none_iff {x : VReg} {nn : Byte} :
    decodeKey x nn = none ↔ nn.toNat ∉ [0x9E, 0xA1] := by
  simp [decodeKey, ite_eq_iff, ← BitVec.toNat_inj]

theorem decodeMisc_eq_none_iff {x : VReg} {nn : Byte} :
    decodeMisc x nn = none ↔ nn.toNat ∉ [0x07, 0x0A, 0x15, 0x18, 0x1E, 0x29, 0x33, 0x55, 0x65] := by
  simp [decodeMisc, ite_eq_iff, ← BitVec.toNat_inj]

theorem decodeFixed_eq_none_iff {w : Word} :
    decodeFixed w = none ↔ w ≠ 0x00E0 ∧ w ≠ 0x00EE := by
  simp [decodeFixed, ite_eq_iff]

/-- Every word of the twelve other families decodes (R77). -/
theorem decodeWord_eq_none_iff {w : Word} : decodeWord w = none ↔
    (fieldFamily w = 0x0 ∧ decodeFixed w = none) ∨
    (fieldFamily w = 0x8 ∧ decodeAlu (fieldX w) (fieldY w) (fieldN w) = none) ∨
    (fieldFamily w = 0xE ∧ decodeKey (fieldX w) (fieldNN w) = none) ∨
    (fieldFamily w = 0xF ∧ decodeMisc (fieldX w) (fieldNN w) = none) := by
  rcases nibble_cases (fieldFamily w) with hf | hf | hf | hf | hf | hf | hf | hf | hf | hf | hf | hf |
    hf | hf | hf | hf <;> simp [decodeWord, hf]

theorem fieldFamily_eq_iff {w : Word} {f : Nibble} : fieldFamily w = f ↔ w.toNat / 4096 = f.toNat := by
  have := w.isLt
  rw [← BitVec.toNat_inj, fieldFamily, BitVec.extractLsb'_toNat, Nat.shiftRight_eq_div_pow,
    Nat.mod_eq_of_lt (by omega)]

theorem fieldN_toNat (w : Word) : (fieldN w).toNat = w.toNat % 16 := by
  simp [fieldN]

theorem fieldNN_toNat (w : Word) : (fieldNN w).toNat = w.toNat % 256 := by
  simp [fieldNN]

/-! ### The obligations -/

/-- Settles O6: an encoding is a word of its instruction, and only well-formed instructions have words. -/
theorem decodeEncodeRoundTrip : Obligations.DecodeEncodeRoundTrip :=
  ⟨fun _ rest h => decode_bytesOfWord (decodeWord_encode h) rest,
    fun _ _ h => (isWordOf_iff_encode.mp (decodeWord_eq_some_iff.mp h)).1⟩

/-- Settles O3: a match fixes the family and the selector, and they fix the row that is decoded; so a
second row matched is the same row. -/
theorem decoderAgreesWithOpcodeMasks : Obligations.DecoderAgreesWithOpcodeMasks := by
  refine ⟨fun w i h => ⟨row_mem_opcodeRows i, rowMatches_of_decodeWord h⟩, fun w => ⟨fun h => ?_, ?_⟩,
    fun w r hr r' hr' h h' => ?_⟩
  · obtain ⟨i, hi⟩ := Option.isSome_iff_exists.mp h
    exact ⟨i.row, row_mem_opcodeRows i, rowMatches_of_decodeWord hi⟩
  · rintro ⟨row, hrow, h⟩
    rw [← Option.isSome_map (f := Instr.row), decodeWord_row_of_rowMatches hrow h]
    rfl
  · have hsame := (decodeWord_row_of_rowMatches hr h).symm.trans (decodeWord_row_of_rowMatches hr' h')
    exact Option.some.inj hsame

/-- Settles O4: the families that can fail, each by what its own decoder refuses. -/
theorem unknownWordsByFamily : Obligations.UnknownWordsByFamily := by
  intro w
  rw [decodeWord_eq_none_iff, decodeFixed_eq_none_iff, decodeAlu_eq_none_iff, decodeKey_eq_none_iff,
    decodeMisc_eq_none_iff, fieldN_toNat, fieldNN_toNat]
  simp only [fieldFamily_eq_iff]
  rfl

/-- Settles O5: an instruction's words are those that its encoding gives when the ignored bits are
cleared. -/
theorem onlyUnusedFieldsIgnored : Obligations.OnlyUnusedFieldsIgnored := by
  simp only [Obligations.OnlyUnusedFieldsIgnored, decodeWord_eq_some_iff, isWordOf_iff_encode]
  exact ⟨fun _ _ h => h.2, fun _ _ _ ⟨hwf, hencode⟩ hsame => ⟨hwf, hencode.trans hsame.symm⟩⟩

/-- Settles O1: the decoder run on each word. -/
theorem opcodeWordsDecode : Obligations.OpcodeWordsDecode := by
  unfold Obligations.OpcodeWordsDecode
  decide

/-- Settles O2: the value of a word of two bytes, and the decoder's equation on two bytes. -/
theorem decoderTakesTwoBytesBigEndian : Obligations.DecoderTakesTwoBytesBigEndian :=
  ⟨wordOfBytes_toNat, fun _ _ _ _ _ => decode_eq_ok_iff, fun _ => rfl, rfl⟩

/-- Settles O17: the fetch succeeds and the decoder refuses, so the cycle enters the fault of R74. -/
theorem unknownWordFaults : Obligations.UnknownWordFaults :=
  fun _ _ hm hq hfetch hd => Machine.step_unknown hm hq hfetch hd

end Sys2Proof
end

section
/-! PROOFS. The obligations about control flow (`40_control_flow.md`). `call` and `return` have two outcomes
each, said once (`exec_call`, `exec_ret` and their faults). A transfer changes PC alone, and `Keeps` does not
speak of PC, so the frame of a call or a return is that of its push or pop. -/

namespace Sys2Proof

/-! ### Encodings as numbers -/

/-- A number written as family, two registers and a low digit is that word. -/
theorem ofNat_eq_wordXYN_of_lt (f : Nibble) (x y : VReg) {n : Nat} (hn : n < 16) :
    BitVec.ofNat 16 (f.toNat * 4096 + x.val * 256 + y.val * 16 + n) =
      wordXYN f x y (BitVec.ofNat 4 n) := by
  rw [← ofNat_eq_wordXYN, BitVec.toNat_ofNat, Nat.mod_eq_of_lt hn]

/-- A number that is a word of the instruction is its encoding. -/
theorem encodedAs_of_isWordOf {i : Instr} {n : Nat} (h : IsWordOf (BitVec.ofNat 16 n) i) :
    EncodedAs i n :=
  decodeWord_of_isWordOf h

end Sys2Proof

namespace Sys2Proof.Machine

/-! ### The fetch -/

/-- Below the end of memory the fetch gives the word at PC (R101). -/
theorem State.fetch_eq_currentWord {s : State} (h : s.pc.toNat + 1 ≤ 0xFFF) :
    s.fetch = some s.currentWord :=
  State.fetch_eq_some.mpr ⟨by omega, rfl⟩

/-- The instruction the two bytes at PC decode to is the next instruction (R100, R101). -/
theorem State.nextInstr_of_decode {s : State} {i : Instr} (hpc : s.pc.toNat + 1 ≤ 0xFFF)
    (h : decode [s.mem.read s.pc.toNat, s.mem.read (s.pc.toNat + 1)] = .ok (i, [])) :
    s.nextInstr = some i :=
  State.nextInstr_eq_some.mpr ⟨_, State.fetch_eq_currentWord hpc, (decode_eq_ok_iff.mp h).1⟩

/-- A step from a known instruction ends as that instruction's cycle does. -/
theorem eq_finishCycle_of_step {s t u : State} {i : Instr} (hm : s.mode = .run)
    (hq : s.input.quit = false) (hi : s.nextInstr = some i) (he : exec i s.beginCycle = .next u)
    (h : step s = .next t) : t = u.finishCycle s.input :=
  Host.Outcome.next.inj (h.symm.trans (step_exec hm hq hi he))

/-! ### `call` and `return` -/

variable {s : State}

theorem exec_call (nnn : Addr) (h : s.sp ≠ 15) :
    exec (.call nnn) s = .next (s.pushPc.goto (pcOfAddr nnn)) :=
  if_neg h

theorem exec_call_fault (nnn : Addr) (h : s.sp = 15) :
    exec (.call nnn) s = .next (s.instrFault .stackOverflow none) :=
  if_pos h

theorem exec_ret (h : s.sp ≠ 0) :
    exec .ret s = .next (s.popSp.goto (returnTarget (s.stackAt s.sp))) :=
  if_neg h

theorem exec_ret_fault (h : s.sp = 0) : exec .ret s = .next (s.instrFault .stackUnderflow none) :=
  if_pos h

/-- Below the deepest index a push does not wrap SP (R26). -/
theorem State.pushPc_sp_toNat (h : s.sp ≠ 15) : s.pushPc.sp.toNat = s.sp.toNat + 1 := by
  rw [State.pushPc_sp]
  bv_omega

/-- Above the empty stack a pop does not wrap SP (R26). -/
theorem State.popSp_sp_toNat (h : s.sp ≠ 0) : s.popSp.sp.toNat + 1 = s.sp.toNat := by
  rw [State.popSp_sp]
  bv_omega

/-- A slot that a push changes is the one at the new SP. -/
theorem State.eq_sp_of_pushPc_stackAt_ne {k : BitVec 4} (h : s.pushPc.stackAt k ≠ s.stackAt k) :
    k = s.pushPc.sp ∧ s.pushPc.stackAt k = s.pc.setWidth 12 := by
  rw [State.stackAt_pushPc] at h ⊢
  by_cases hk : k = s.sp + 1
  · exact ⟨hk, if_pos hk⟩
  · exact absurd (if_neg hk) h

/-- The slot at the new SP holds the whole PC of a call that could be fetched (R25, R110). -/
theorem State.pushPc_top_toNat (h : s.pc.toNat ≤ 0xFFE) :
    (s.pushPc.stackAt s.pushPc.sp).toNat = s.pc.toNat := by
  rw [State.stackAt_pushPc, State.pushPc_sp, if_pos rfl, BitVec.toNat_setWidth]
  omega

/-! ### Targets of transfers -/

theorem pcOfAddr_toNat (a : Addr) : (pcOfAddr a).toNat = a.toNat :=
  BitVec.toNat_setWidth_of_le (by decide)

/-- A popped address plus 2 fits the 13 bits of PC (R22, R108). -/
theorem returnTarget_toNat (a : Addr) : (returnTarget a).toNat = a.toNat + 2 := by
  have ha := pcOfAddr_toNat a
  unfold returnTarget
  bv_omega

/-- The sum fits the 13 bits of PC (R22, R118). -/
theorem jumpV0Target_toNat (u : Byte) (a : Addr) : (jumpV0Target u a).toNat = u.toNat + a.toNat := by
  rw [jumpV0Target, BitVec.toNat_ofNat]
  omega

/-- The PC after a skip on a condition given as a proposition. -/
theorem State.skipIf_pc_of_iff {c : Bool} {p : Prop} [Decidable p] (h : c = true ↔ p) :
    (s.skipIf c).pc = if p then s.pc + 4 else s.pc + 2 := by
  rw [State.skipIf_pc, apply_ite (s.pc + ·)]
  exact if_congr h rfl rfl

/-- The PC after a skip on the negation of such a condition. -/
theorem State.skipIf_not_pc_of_iff {c : Bool} {p : Prop} [Decidable p] (h : c = true ↔ p) :
    (s.skipIf !c).pc = if p then s.pc + 2 else s.pc + 4 := by
  rw [State.skipIf_pc_of_iff (p := ¬p) (by simp [← h]), ite_not]

/-- Equality of bytes as the skips test it, and as their rules state it (R112 to R115). -/
theorem beq_iff_toNat_eq (a b : Byte) : (a == b) = true ↔ a.toNat = b.toNat := by
  rw [beq_iff_eq, BitVec.toNat_inj]

/-! ### Frames of the control transfers -/

theorem Keeps.refl (m : MayChange) (s : State) : Keeps m s s where
  regs _ _ := rfl
  index _ := rfl
  sp _ := rfl
  slots _ _ := rfl
  dt _ := rfl
  st _ := ⟨rfl, rfl⟩
  display _ := ⟨fun _ _ => rfl, rfl⟩
  mem _ _ := rfl
  mode _ := ⟨rfl, rfl⟩
  lastDecay := rfl
  faultRecord := rfl
  inputs := ⟨rfl, rfl⟩

/-- A frame does not speak of PC. -/
theorem Keeps.goto {m : MayChange} {t : State} (h : Keeps m s t) (p : PcVal) : Keeps m s (t.goto p) :=
  { h with }

theorem Keeps.skipIf {m : MayChange} {t : State} (h : Keeps m s t) (c : Bool) :
    Keeps m s (t.skipIf c) :=
  { h with }

/-- A push changes SP and the slot at the new SP (R110). -/
theorem Keeps.pushPc (s : State) :
    Keeps { sp := true, slots := (· == s.pushPc.sp) } s s.pushPc :=
  { Keeps.refl _ s with
    sp := fun h => nomatch h
    slots := fun k hk => by
      by_contra hne
      exact beq_eq_false_iff_ne.mp hk (State.eq_sp_of_pushPc_stackAt_ne hne).1 }

/-- A pop changes SP and no slot (R108). -/
theorem Keeps.popSp (s : State) : Keeps { sp := true } s s.popSp :=
  { Keeps.refl _ s with sp := fun h => nomatch h }

/-! ### The obligations -/

/-- Settles O27: an idle cycle keeps the stack, and so does every instruction but the two; the slot a call
writes is above an SP that does not wrap, so it is not slot 0. -/
theorem stackMovedOnlyByCallAndReturn : Obligations.StackMovedOnlyByCallAndReturn := by
  intro s t h
  rcases step_frame h with ⟨-, -, i, u, hi, f, rfl⟩ | f
  · simp only [State.finishCycle_sp, State.finishCycle_stackAt]
    rcases f.stack with ⟨hsp, hs⟩ | ⟨a, rfl, hne, hsp, hs⟩ | ⟨rfl, hne, hsp, hs⟩
    · exact ⟨fun h => absurd hsp h, fun k h => absurd (State.stackAt_eq_of_stack hs k) h⟩
    · have hup : u.sp.toNat = s.sp.toNat + 1 := hsp ▸ State.pushPc_sp_toNat hne
      refine ⟨fun _ => .inl ⟨a, hi, hup⟩, fun k hk => ?_⟩
      rw [State.stackAt_eq_of_stack hs k] at hk ⊢
      obtain ⟨htop, hval⟩ := State.eq_sp_of_pushPc_stackAt_ne hk
      have hk' : k = u.sp := htop.trans hsp.symm
      exact ⟨by rintro rfl; simp [← hk'] at hup, hk', ⟨a, hi⟩, hval⟩
    · have hdown : u.sp.toNat + 1 = s.sp.toNat := hsp ▸ State.popSp_sp_toNat hne
      exact ⟨fun _ => .inr ⟨hi, hdown⟩, fun k h => absurd (State.stackAt_eq_of_stack hs k) h⟩
  · exact ⟨fun h => absurd f.sp h, fun k h => absurd (State.stackAt_eq_of_stack f.stack k) h⟩

/-- Settles O33: the call leaves its own address on top of the stack, and the return takes it from
there. -/
theorem callReturnRoundTrip : Obligations.CallReturnRoundTrip := by
  intro s t u nnn hm hq hi hsp ht hq' hi' hu
  have hpc := State.pc_le_of_nextInstr hi
  have ht' := eq_finishCycle_of_step hm hq hi (exec_call (s := s.beginCycle) nnn hsp) ht
  have hm' : t.mode = .run := by simpa [ht'] using hm
  have hsp' : t.sp = s.sp + 1 := by simp [ht']
  have htop : (t.stackAt t.sp).toNat = s.pc.toNat := by
    simpa [ht'] using State.pushPc_top_toNat hpc
  have hne : t.sp ≠ 0 := by bv_omega
  have hu' := eq_finishCycle_of_step hm' hq' hi' (exec_ret (s := t.beginCycle) hne) hu
  refine ⟨by simpa [hu'] using hm', ?_, by simp [hu', hsp']⟩
  calc u.pc.toNat = (returnTarget (t.stackAt t.sp)).toNat := by simp [hu']
    _ = (t.stackAt t.sp).toNat + 2 := returnTarget_toNat _
    _ = s.pc.toNat + 2 := by rw [htop]

/-- Settles O12: the bytes at PC are the fetched word, so their instruction is the one the cycle
executes. -/
theorem stepRunsDecodedInstruction : Obligations.StepRunsDecodedInstruction := by
  intro s i hm hq hpc hd
  obtain ⟨u, hu⟩ := exec_answers_next i s.beginCycle
  rw [step_exec hm hq (State.nextInstr_of_decode hpc hd) hu, hu]
  rfl

/-- Settles O16: the range check of the fetch, the value of the word fetched, and the fault's cycle. -/
theorem fetchChecksRange : Obligations.FetchChecksRange :=
  ⟨fun _ h => State.fetch_eq_none.mpr (by omega),
    fun _ h => ⟨_, State.fetch_eq_currentWord h, wordOfBytes_toNat _ _⟩,
    fun _ hm hq h => step_fetchFault hm hq (State.fetch_eq_none.mpr (by omega))⟩

/-- Settles O36: the pop and its target, and the fault on the empty stack. -/
theorem returnResumesAfterCall : Obligations.ReturnResumesAfterCall := fun s =>
  ⟨encodedAs_of_isWordOf rfl,
    fun h => ⟨_, exec_ret h, returnTarget_toNat _, State.popSp_sp_toNat h, (Keeps.popSp s).goto _⟩,
    fun h => exec_ret_fault h⟩

/-- Settles O37: both targets fit PC, and a jump changes PC alone. -/
theorem jumpsGoToTarget : Obligations.JumpsGoToTarget := fun nnn s =>
  ⟨encodedAs_of_isWordOf (ofNat_eq_wordNNN 0x1 nnn), encodedAs_of_isWordOf (ofNat_eq_wordNNN 0xB nnn),
    ⟨_, rfl, pcOfAddr_toNat nnn, (Keeps.refl _ s).goto _⟩,
    ⟨_, rfl, jumpV0Target_toNat _ nnn, (Keeps.refl _ s).goto _⟩⟩

/-- Settles O38: the push and the target, and the fault on the full stack. -/
theorem callPushesOwnAddress : Obligations.CallPushesOwnAddress := fun nnn s hpc =>
  ⟨encodedAs_of_isWordOf (ofNat_eq_wordNNN 0x2 nnn),
    fun h => ⟨_, exec_call nnn h, pcOfAddr_toNat nnn, State.pushPc_sp_toNat h,
      State.pushPc_top_toNat hpc, (Keeps.pushPc s).goto _⟩,
    fun h => exec_call_fault nnn h⟩

/-- Settles O39: each skip changes PC alone, by a condition that is equality or its negation. -/
theorem registerSkipsTestTheirCondition : Obligations.RegisterSkipsTestTheirCondition :=
  fun x y nn s =>
  ⟨encodedAs_of_isWordOf (ofNat_eq_wordXNN 0x3 x nn),
    encodedAs_of_isWordOf (ofNat_eq_wordXNN 0x4 x nn),
    fun _ hn => encodedAs_of_isWordOf ⟨_, ofNat_eq_wordXYN_of_lt 0x5 x y hn⟩,
    fun _ hn => encodedAs_of_isWordOf ⟨_, ofNat_eq_wordXYN_of_lt 0x9 x y hn⟩,
    ⟨_, rfl, State.skipIf_pc_of_iff (beq_iff_toNat_eq _ _), (Keeps.refl _ s).skipIf _⟩,
    ⟨_, rfl, State.skipIf_not_pc_of_iff (beq_iff_toNat_eq _ _), (Keeps.refl _ s).skipIf _⟩,
    ⟨_, rfl, State.skipIf_pc_of_iff (beq_iff_toNat_eq _ _), (Keeps.refl _ s).skipIf _⟩,
    ⟨_, rfl, State.skipIf_not_pc_of_iff (beq_iff_toNat_eq _ _), (Keeps.refl _ s).skipIf _⟩⟩

end Sys2Proof.Machine
end

section
/-! PROOFS. The obligations about the register loads and the ALU (`41_register_alu.md`). An instruction of
the family writes Vx, or a flag and Vx, and goes on at PC + 2, so each of the two ways of writing has its
values and its frame said once. What a cycle does with its inputs is said by `step_withInput`. -/

namespace Sys2Proof

/-! ### Encodings with the fixed digits first -/

/-- A number written as the fixed digits, then x, is that word. -/
theorem ofNat_digits_eq_wordXNN (f : Nibble) (x : VReg) (nn : Byte) :
    BitVec.ofNat 16 (f.toNat * 4096 + nn.toNat + x.val * 256) = wordXNN f x nn := by
  rw [← ofNat_eq_wordXNN, Nat.add_right_comm]

/-- A number written as the fixed digits, then x and y, is that word. -/
theorem ofNat_digits_eq_wordXYN (f : Nibble) (x y : VReg) (n : Nibble) :
    BitVec.ofNat 16 (f.toNat * 4096 + n.toNat + x.val * 256 + y.val * 16) = wordXYN f x y n := by
  rw [← ofNat_eq_wordXYN]
  congr 1
  omega

end Sys2Proof

namespace Sys2Proof.Machine

/-! ### Operands and flags as numbers -/

theorem wrapAdd_toNat (a b : Byte) : (wrapAdd a b).toNat = (a.toNat + b.toNat) % 256 := by
  simp [wrapAdd]

theorem wrapSub_toNat (a b : Byte) : (wrapSub a b).toNat = (a.toNat + 256 - b.toNat) % 256 := by
  simp [wrapSub]

theorem shiftRight1_toNat (a : Byte) : (shiftRight1 a).toNat = a.toNat / 2 := by
  rw [shiftRight1, BitVec.toNat_ofNat]
  omega

theorem shiftLeft1_toNat (a : Byte) : (shiftLeft1 a).toNat = a.toNat * 2 % 256 := by
  simp [shiftLeft1]

/-- A flag given by a comparison. -/
theorem flagByte_decide (p : Prop) [Decidable p] : flagByte (decide p) = if p then 1 else 0 :=
  if_congr decide_eq_true_iff rfl rfl

theorem flagByte_toNat (b : Bool) : (flagByte b).toNat = b.toNat := by
  cases b <;> rfl

/-- The bit `shr` shifts out is the remainder by 2 (R139). -/
theorem shiftedOutLow_toNat (a : Byte) : (shiftedOutLow a).toNat = a.toNat % 2 := by
  rw [shiftedOutLow, BitVec.getLsbD, Nat.toNat_testBit, pow_zero, Nat.div_one]

/-- The bit `shl` shifts out is the quotient by 128 (R141). -/
theorem shiftedOutHigh_toNat (a : Byte) : (shiftedOutHigh a).toNat = a.toNat / 128 := by
  rw [shiftedOutHigh, BitVec.getLsbD, Nat.toNat_testBit]
  omega

/-! ### The two ways an instruction of the family writes registers -/

variable {s : State}

theorem Keeps.advance {m : MayChange} {t : State} (h : Keeps m s t) : Keeps m s t.advance :=
  h.goto _

theorem State.reg_setReg_same (s : State) (x : VReg) (u : Byte) : (s.setReg x u).reg x = u := by
  rw [State.reg_setReg, if_pos rfl]

/-- A register write changes that register alone. -/
theorem Keeps.setReg (s : State) (x : VReg) (u : Byte) :
    Keeps { regs := (· == x) } s (s.setReg x u) :=
  { Keeps.refl _ s with
    regs := fun r hr => (s.reg_setReg x u r).trans (if_neg (beq_eq_false_iff_ne.mp hr)) }

/-- Vx holds the result, x = F included (R142). -/
theorem State.writeFlagged_reg_dest (s : State) (x : VReg) (flag : Bool) (result : Byte) :
    (s.writeFlagged vfAlias x flag result).reg x = result := by
  rw [State.writeFlagged_reg, if_pos rfl]

/-- VF holds the flag when it is not the destination (R142). -/
theorem State.writeFlagged_reg_VF {x : VReg} (hx : x ≠ VF) (flag : Bool) (result : Byte) :
    (s.writeFlagged vfAlias x flag result).reg VF = flagByte flag := by
  rw [State.writeFlagged_reg, if_neg hx.symm, if_pos rfl]

/-- Writing flag and result changes Vx and VF alone. -/
theorem Keeps.writeFlagged (s : State) (x : VReg) (flag : Bool) (result : Byte) :
    Keeps { regs := fun r => r == x || r == VF } s (s.writeFlagged vfAlias x flag result) :=
  { Keeps.refl _ s with
    regs := fun r hr => by
      obtain ⟨hx, hf⟩ := Bool.or_eq_false_iff.mp hr
      rw [State.writeFlagged_reg, if_neg (beq_eq_false_iff_ne.mp hx),
        if_neg (beq_eq_false_iff_ne.mp hf)] }

/-! ### The inputs a cycle depends on -/

/-- The state with another input presented in the coming cycle. -/
def State.withInput (s : State) (inp : CycleInput) : State :=
  { s with inputs := inp :: s.inputs.tail }

@[simp] theorem State.withInput_input (s : State) (inp : CycleInput) :
    (s.withInput inp).input = inp :=
  rfl

/-- The input presented is gone at the end of the cycle, whichever it was (R36). -/
theorem State.finishCycle_withInput (u : State) (inp inp' : CycleInput) :
    (u.withInput inp).finishCycle inp' = u.finishCycle inp' :=
  rfl

/-- After its instruction a cycle uses tick and clock reading alone (R210). -/
theorem State.finishCycle_congr (u : State) {inp inp' : CycleInput} (ht : inp.tick = inp'.tick)
    (hn : inp.now = inp'.now) : u.finishCycle inp = u.finishCycle inp' := by
  simp only [State.finishCycle, State.timerGate, ht, hn]

/-- A key wait uses the key edge alone (R205). -/
theorem State.resumeWait_withInput (s : State) {inp inp' : CycleInput}
    (hk : inp.keyEdge = inp'.keyEdge) :
    (s.withInput inp).resumeWait inp = (s.resumeWait inp').withInput inp := by
  unfold State.resumeWait
  rw [hk]
  split <;> rfl

/-- A range check does not look at the input. -/
theorem State.withInput_withRange (ok : State) (lo count : Nat) (inp : CycleInput) :
    (s.withRange lo count ok).withInput inp =
      (s.withInput inp).withRange lo count (ok.withInput inp) :=
  apply_ite (State.withInput · inp) _ _ _

/-- The two inputs are the same as far as the instruction reads them (R146, R236). -/
def CycleInput.AgreesFor (i : Instr) (inp inp' : CycleInput) : Prop :=
  (i.readsKey = true → inp.keyEdge = inp'.keyEdge) ∧ (i.readsRand = true → inp.rand = inp'.rand)

/-- An instruction carries an input that it cannot tell from the cycle's own along unchanged. -/
theorem exec_withInput {i : Instr} {u : State} {inp : CycleInput} (ha : inp.AgreesFor i s.input)
    (h : exec i s = .next u) : exec i (s.withInput inp) = .next (u.withInput inp) := by
  obtain ⟨hkey, hrand⟩ := ha
  cases i with
  | ret =>
    by_cases hsp : s.sp = 0
    · cases (exec_ret_fault hsp).symm.trans h
      exact exec_ret_fault (s := s.withInput inp) hsp
    · cases (exec_ret hsp).symm.trans h
      exact exec_ret (s := s.withInput inp) hsp
  | call nnn =>
    by_cases hsp : s.sp = 15
    · cases (exec_call_fault nnn hsp).symm.trans h
      exact exec_call_fault (s := s.withInput inp) nnn hsp
    · cases (exec_call nnn hsp).symm.trans h
      exact exec_call (s := s.withInput inp) nnn hsp
  | addI x =>
    simp only [exec, execAddI] at h ⊢
    split at h <;> rename_i hsum <;> cases h
    · exact if_pos hsum
    · exact if_neg hsum
  | random x nn =>
    cases h
    simp only [exec, execRandom, State.withInput_input, hrand rfl]
    rfl
  | skipKeyPressed x =>
    cases h
    simp only [exec, execSkipKeyPressed, State.withInput_input, hkey rfl]
    rfl
  | skipKeyNotPressed x =>
    cases h
    simp only [exec, execSkipKeyNotPressed, State.withInput_input, hkey rfl]
    rfl
  | waitKey x =>
    simp only [exec, execWaitKey, State.withInput_input, hkey rfl] at h ⊢
    split at h <;> cases h <;> rfl
  | draw x y n =>
    cases h
    rw [State.withInput_withRange]
    rfl
  | storeBcd x =>
    cases h
    rw [State.withInput_withRange]
    rfl
  | storeRegs x =>
    cases h
    rw [State.withInput_withRange]
    rfl
  | readRegs x =>
    cases h
    rw [State.withInput_withRange]
    rfl
  | _ =>
    cases h
    rfl

/-- A cycle ends the same under an input that agrees with its own in quit, tick and clock reading, and in
the ports that the key wait or the fetched instruction reads. -/
theorem step_withInput {inp : CycleInput} (hterm : s.mode.terminal = false)
    (hquit : inp.quit = s.input.quit) (htick : inp.tick = s.input.tick)
    (hnow : inp.now = s.input.now) (hwait : s.mode = .awaitKey → inp.keyEdge = s.input.keyEdge)
    (hinstr : ∀ i, s.nextInstr = some i → inp.AgreesFor i s.input) :
    step (s.withInput inp) = step s := by
  have hfin (u : State) : (u.withInput inp).finishCycle inp = u.finishCycle s.input :=
    (u.finishCycle_withInput inp inp).trans (u.finishCycle_congr htick hnow)
  cases hq : s.input.quit with
  | true =>
    rw [step_quit hterm hq, step_quit (s := s.withInput inp) hterm (hquit.trans hq)]
    rfl
  | false =>
    have hq' : (s.withInput inp).input.quit = false := hquit.trans hq
    cases hm : s.mode with
    | halted => simp [hm, Mode.terminal] at hterm
    | faulted => simp [hm, Mode.terminal] at hterm
    | awaitKey =>
      rw [step_await hm hq, step_await (s := s.withInput inp) hm hq', ← hfin]
      exact congrArg (fun u : State => Host.Outcome.next (u.finishCycle inp))
        (s.beginCycle.resumeWait_withInput (hwait hm))
    | run =>
      cases hf : s.fetch with
      | none =>
        rw [step_fetchFault hm hq hf, step_fetchFault (s := s.withInput inp) hm hq' hf]
        rfl
      | some w =>
        cases hd : decodeWord w with
        | none =>
          rw [step_unknown hm hq hf hd, step_unknown (s := s.withInput inp) hm hq' hf hd]
          rfl
        | some i =>
          have hi : s.nextInstr = some i := State.nextInstr_eq_some.mpr ⟨w, hf, hd⟩
          obtain ⟨u, hu⟩ := exec_answers_next i s.beginCycle
          have hu' := exec_withInput (s := s.beginCycle) (hinstr i hi) hu
          rw [step_exec hm hq hi hu, step_exec (s := s.withInput inp) hm hq' hi hu', ← hfin]
          rfl

/-! ### The obligations -/

/-- Settles O32: the random byte is neither quit nor part of the timer gate, the key wait does not read it,
and of the instructions only `random` does. -/
theorem randomByteReachesOnlyRandom : Obligations.RandomByteReachesOnlyRandom := by
  intro s inp rest byte hterm hs hi
  have hin : s.input = inp := by simp only [State.input, hs]
  have hst : s.withInput { inp with rand := byte } =
      { s with inputs := { inp with rand := byte } :: rest } := by
    rw [State.withInput, hs, List.tail_cons]
  rw [← hst]
  subst hin
  exact step_withInput hterm rfl rfl rfl (fun _ => rfl) fun i h =>
    ⟨fun _ => rfl, fun hr => absurd hr (Bool.eq_false_iff.mp (hi i h))⟩

/-- Settles O41: both write Vx alone. -/
theorem immediateLoadAndAdd : Obligations.ImmediateLoadAndAdd := fun x nn s =>
  ⟨encodedAs_of_isWordOf (ofNat_eq_wordXNN 0x6 x nn),
    encodedAs_of_isWordOf (ofNat_eq_wordXNN 0x7 x nn),
    ⟨_, rfl, s.reg_setReg_same x _, rfl, (Keeps.setReg s x _).advance⟩,
    ⟨_, rfl, (congrArg BitVec.toNat (s.reg_setReg_same x _)).trans (wrapAdd_toNat _ nn), rfl,
      (Keeps.setReg s x _).advance⟩⟩

/-- Settles O42: both write Vx alone. -/
theorem registerLoads : Obligations.RegisterLoads := fun x y s =>
  ⟨encodedAs_of_isWordOf (ofNat_digits_eq_wordXYN 0x8 x y 0x0),
    encodedAs_of_isWordOf (ofNat_digits_eq_wordXNN 0xF x 0x07),
    ⟨_, rfl, s.reg_setReg_same x _, rfl, (Keeps.setReg s x _).advance⟩,
    ⟨_, rfl, s.reg_setReg_same x _, rfl, (Keeps.setReg s x _).advance⟩⟩

/-- Settles O43: the bits of the value written are those of the operation. -/
theorem bitwiseOperations : Obligations.BitwiseOperations := fun x y s =>
  ⟨encodedAs_of_isWordOf (ofNat_digits_eq_wordXYN 0x8 x y 0x1),
    encodedAs_of_isWordOf (ofNat_digits_eq_wordXYN 0x8 x y 0x2),
    encodedAs_of_isWordOf (ofNat_digits_eq_wordXYN 0x8 x y 0x3),
    ⟨_, rfl, fun k => (congrArg (·.getLsbD k) (s.reg_setReg_same x _)).trans BitVec.getLsbD_or, rfl,
      (Keeps.setReg s x _).advance⟩,
    ⟨_, rfl, fun k => (congrArg (·.getLsbD k) (s.reg_setReg_same x _)).trans BitVec.getLsbD_and, rfl,
      (Keeps.setReg s x _).advance⟩,
    ⟨_, rfl, fun k => (congrArg (·.getLsbD k) (s.reg_setReg_same x _)).trans BitVec.getLsbD_xor, rfl,
      (Keeps.setReg s x _).advance⟩⟩

/-- Settles O47: the bits of the value written are those of the masked byte. -/
theorem randomMasksTheByte : Obligations.RandomMasksTheByte := fun x nn s =>
  ⟨encodedAs_of_isWordOf (ofNat_eq_wordXNN 0xC x nn),
    ⟨_, rfl, fun k => (congrArg (·.getLsbD k) (s.reg_setReg_same x _)).trans BitVec.getLsbD_and, rfl,
      (Keeps.setReg s x _).advance⟩⟩

/-- Settles O44: the sum goes to Vx, the carry to VF. -/
theorem addSetsCarry : Obligations.AddSetsCarry := fun x y s =>
  ⟨encodedAs_of_isWordOf (ofNat_digits_eq_wordXYN 0x8 x y 0x4),
    ⟨_, rfl, (congrArg BitVec.toNat (s.writeFlagged_reg_dest x _ _)).trans (wrapAdd_toNat _ _),
      fun hx => (s.writeFlagged_reg_VF hx _ _).trans (flagByte_decide _), rfl,
      (Keeps.writeFlagged s x _ _).advance⟩⟩

/-- Settles O45: the difference goes to Vx, no-borrow to VF. -/
theorem subtractionsSetNoBorrow : Obligations.SubtractionsSetNoBorrow := fun x y s =>
  ⟨encodedAs_of_isWordOf (ofNat_digits_eq_wordXYN 0x8 x y 0x5),
    encodedAs_of_isWordOf (ofNat_digits_eq_wordXYN 0x8 x y 0x7),
    ⟨_, rfl, (congrArg BitVec.toNat (s.writeFlagged_reg_dest x _ _)).trans (wrapSub_toNat _ _),
      fun hx => (s.writeFlagged_reg_VF hx _ _).trans (flagByte_decide _), rfl,
      (Keeps.writeFlagged s x _ _).advance⟩,
    ⟨_, rfl, (congrArg BitVec.toNat (s.writeFlagged_reg_dest x _ _)).trans (wrapSub_toNat _ _),
      fun hx => (s.writeFlagged_reg_VF hx _ _).trans (flagByte_decide _), rfl,
      (Keeps.writeFlagged s x _ _).advance⟩⟩

/-- Settles O46: the shifted value goes to Vx, the bit shifted out to VF, and the words of a shift leave
`y` free. -/
theorem shiftsSetBitShiftedOut : Obligations.ShiftsSetBitShiftedOut := fun x s =>
  ⟨fun y hy => encodedAs_of_isWordOf ⟨⟨y, hy⟩, ofNat_digits_eq_wordXYN 0x8 x ⟨y, hy⟩ 0x6⟩,
    fun y hy => encodedAs_of_isWordOf ⟨⟨y, hy⟩, ofNat_digits_eq_wordXYN 0x8 x ⟨y, hy⟩ 0xE⟩,
    ⟨_, rfl, (congrArg BitVec.toNat (s.writeFlagged_reg_dest x _ _)).trans (shiftRight1_toNat _),
      fun hx => (congrArg BitVec.toNat (s.writeFlagged_reg_VF hx _ _)).trans
        ((flagByte_toNat _).trans (shiftedOutLow_toNat _)), rfl,
      (Keeps.writeFlagged s x _ _).advance⟩,
    ⟨_, rfl, (congrArg BitVec.toNat (s.writeFlagged_reg_dest x _ _)).trans (shiftLeft1_toNat _),
      fun hx => (congrArg BitVec.toNat (s.writeFlagged_reg_VF hx _ _)).trans
        ((flagByte_toNat _).trans (shiftedOutHigh_toNat _)), rfl,
      (Keeps.writeFlagged s x _ _).advance⟩⟩

end Sys2Proof.Machine
end

section
/-! PROOFS. The obligations about the index register and memory instructions (`42_index_memory.md`). In range
each memory instruction is its effect and PC + 2 (`exec_storeBcd`, `exec_storeRegs`, `exec_readRegs`), and the
two effects, bytes written from I and registers loaded from I, have their values and frames said once. -/

namespace Sys2Proof.Machine

variable {s : State}

/-! ### The index register -/

/-- A number that fits its width is kept. -/
theorem toNat_ofNat_of_lt {w n : Nat} (h : n < 2 ^ w) : (BitVec.ofNat w n).toNat = n := by
  rw [BitVec.toNat_ofNat, Nat.mod_eq_of_lt h]

/-- The glyph address fits I without masking (R164). -/
theorem glyphAddr_toNat (u : Byte) : (glyphAddr u).toNat = u.toNat * 5 := by
  have hu := u.isLt
  exact toNat_ofNat_of_lt (show u.toNat * 5 < 2 ^ 12 by omega)

/-- A write of I changes I alone. -/
theorem Keeps.setIndex (s : State) (a : Addr) : Keeps { index := true } s { s with i := a } :=
  { Keeps.refl _ s with index := fun h => nomatch h }

theorem exec_addI {x : VReg} (h : indexSum s.i (s.reg x) ≤ 0xFFF) :
    exec (.addI x) s = .next { s with i := BitVec.ofNat 12 (indexSum s.i (s.reg x)) }.advance :=
  if_neg (Nat.not_lt.mpr h)

theorem exec_addI_fault {x : VReg} (h : indexSum s.i (s.reg x) > 0xFFF) :
    exec (.addI x) s =
      .next (s.instrFault .indexOutOfRange (some (BitVec.ofNat 13 (indexSum s.i (s.reg x))))) :=
  if_pos h

/-! ### Bytes written from an address, registers loaded from one -/

/-- The byte at offset `k` is the one written there (R53). -/
theorem Memory.read_writeBytes_at {m : Memory} (h : m.wf) {a k : Nat} {bs : List Byte}
    (hr : a + bs.length ≤ 0x1000) (hk : k < bs.length) :
    (m.writeBytes a bs).read (a + k) = bs.getD k 0 := by
  rw [Memory.read_writeBytes h a bs hr, if_pos (by omega), Nat.add_sub_cancel_left]

/-- The byte at offset `k` of stored registers is Vk (R168). -/
theorem Memory.read_stored_reg {m : Memory} (h : m.wf) {a : Nat} {x k : VReg}
    (hr : a + (x.val + 1) ≤ 0x1000) (hk : k ≤ x) :
    (m.writeBytes a (s.regsUpTo x)).read (a + k.val) = s.reg k := by
  have hlen := regsUpTo_length s x
  have hk' := Fin.le_def.mp hk
  rw [Memory.read_writeBytes_at h (by omega) (by omega), regsUpTo_getD s x k hk]

/-- The byte at offset `k` of stored digits has the value of the digit, which fits a byte (R166). -/
theorem Memory.read_stored_digit {m : Memory} (h : m.wf) {a k n : Nat} {u : Byte}
    (hr : a + 3 ≤ 0x1000) (hk : k < 3) (hd : (bcdDigits u).getD k 0 = BitVec.ofNat 8 n) (hn : n < 256) :
    ((m.writeBytes a (bcdDigits u)).read (a + k)).toNat = n := by
  rw [Memory.read_writeBytes_at h hr hk, hd, toNat_ofNat_of_lt hn]

/-- Writing `n` bytes changes those bytes alone. -/
theorem Keeps.writeBytes (h : s.mem.wf) {a n : Nat} {bs : List Byte} (hn : bs.length = n)
    (hr : a + n ≤ 0x1000) :
    Keeps { mem := inBytes a n } s { s with mem := s.mem.writeBytes a bs } :=
  { Keeps.refl _ s with mem := fun _ hb => Memory.read_writeBytes_outside h (hn ▸ hr) (hn ▸ hb) }

/-- Vk is loaded from offset `k` (R170). -/
theorem State.reg_loadRegs_of_le {x r : VReg} (h : r ≤ x) (a : Nat) :
    (s.loadRegs x a).reg r = s.mem.read (a + r.val) := by
  rw [State.reg_loadRegs, if_pos h]

/-- Writing the register file changes the registers alone, those that `m` names. -/
theorem Keeps.setRegs {m : MayChange} {v : Vector Byte 16}
    (h : ∀ r, m.regs r = false → { s with v := v }.reg r = s.reg r) : Keeps m s { s with v := v } :=
  { Keeps.refl m s with regs := h }

/-- Loading V0..Vx changes those registers alone. -/
theorem Keeps.loadRegs (s : State) (x : VReg) (a : Nat) :
    Keeps { regs := fun r => decide (r ≤ x) } s (s.loadRegs x a) :=
  Keeps.setRegs fun r hr => (s.reg_loadRegs x a r).trans (if_neg (of_decide_eq_false hr))

/-! ### The memory instructions in range (R52) -/

theorem exec_storeBcd {x : VReg} (h : s.i.toNat + 3 ≤ 0x1000) :
    exec (.storeBcd x) s =
      .next { s with mem := s.mem.writeBytes s.i.toNat (bcdDigits (s.reg x)) }.advance :=
  congrArg Host.Outcome.next (State.withRange_ok h)

theorem exec_storeRegs {x : VReg} (h : s.i.toNat + (x.val + 1) ≤ 0x1000) :
    exec (.storeRegs x) s = .next { s with mem := s.mem.writeBytes s.i.toNat (s.regsUpTo x) }.advance :=
  congrArg Host.Outcome.next (State.withRange_ok h)

theorem exec_readRegs {x : VReg} (h : s.i.toNat + (x.val + 1) ≤ 0x1000) :
    exec (.readRegs x) s = .next (s.loadRegs x s.i.toNat).advance :=
  congrArg Host.Outcome.next (State.withRange_ok h)

/-! ### The obligations -/

/-- Settles O34: the load reads at I + r, where the store left Vr. -/
theorem storeThenReadRestoresRegisters : Obligations.StoreThenReadRestoresRegisters := by
  intro x s t t' u hwf hr hstore hmem hi hread r hrx
  have hrange : s.i.toNat + (x.val + 1) ≤ 0x1000 := by omega
  obtain rfl := Host.Outcome.next.inj ((exec_storeRegs hrange).symm.trans hstore)
  have hi' : t'.i = s.i := hi
  obtain rfl := Host.Outcome.next.inj ((exec_readRegs (hi' ▸ hrange)).symm.trans hread)
  calc (t'.loadRegs x t'.i.toNat).advance.reg r = t'.mem.read (t'.i.toNat + r.val) :=
        State.reg_loadRegs_of_le hrx _
    _ = (s.mem.writeBytes s.i.toNat (s.regsUpTo x)).read (s.i.toNat + r.val) := by rw [hmem, hi']; rfl
    _ = s.reg r := Memory.read_stored_reg hwf hrange hrx

/-- Settles O48: I alone is written. -/
theorem loadIndexImmediate : Obligations.LoadIndexImmediate := fun nnn s =>
  ⟨encodedAs_of_isWordOf (ofNat_eq_wordNNN 0xA nnn),
    ⟨_, rfl, rfl, rfl, (Keeps.setIndex s nnn).advance⟩⟩

/-- Settles O49: the glyph address and a sum in range fit I, and a greater sum is the value of the fault. -/
theorem fontAddressAndIndexAdd : Obligations.FontAddressAndIndexAdd := fun x s =>
  ⟨encodedAs_of_isWordOf (ofNat_digits_eq_wordXNN 0xF x 0x29),
    encodedAs_of_isWordOf (ofNat_digits_eq_wordXNN 0xF x 0x1E),
    ⟨_, rfl, glyphAddr_toNat _, rfl, (Keeps.setIndex s _).advance⟩,
    fun h => ⟨_, exec_addI h, toNat_ofNat_of_lt (Nat.lt_succ_of_le h), rfl,
      (Keeps.setIndex s _).advance⟩,
    fun h => exec_addI_fault h⟩

/-- Settles O50: the bytes written are the digits, each less than 256. -/
theorem storeBcdWritesDigits : Obligations.StoreBcdWritesDigits := by
  intro x s hwf hr
  have hrange : s.i.toNat + 3 ≤ 0x1000 := by omega
  have hx := (s.reg x).isLt
  exact ⟨encodedAs_of_isWordOf (ofNat_digits_eq_wordXNN 0xF x 0x33), _, exec_storeBcd hrange,
    Memory.read_stored_digit (k := 0) hwf hrange (by decide) rfl (by omega),
    Memory.read_stored_digit (k := 1) hwf hrange (by decide) rfl (by omega),
    Memory.read_stored_digit (k := 2) hwf hrange (by decide) rfl (by omega),
    rfl, (Keeps.writeBytes hwf (bcdDigits_length _) hrange).advance⟩

/-- Settles O51: the bytes written are V0..Vx. -/
theorem storeRegsWritesRegisters : Obligations.StoreRegsWritesRegisters := by
  intro x s hwf hr
  have hrange : s.i.toNat + (x.val + 1) ≤ 0x1000 := by omega
  exact ⟨encodedAs_of_isWordOf (ofNat_digits_eq_wordXNN 0xF x 0x55), _, exec_storeRegs hrange,
    fun _ hk => Memory.read_stored_reg hwf hrange hk, rfl,
    (Keeps.writeBytes hwf (regsUpTo_length s x) hrange).advance⟩

/-- Settles O52: V0..Vx alone are loaded. -/
theorem readRegsLoadsRegisters : Obligations.ReadRegsLoadsRegisters := fun x s hr =>
  ⟨encodedAs_of_isWordOf (ofNat_digits_eq_wordXNN 0xF x 0x65),
    ⟨_, exec_readRegs (Nat.succ_le_succ hr), fun _ hk => State.reg_loadRegs_of_le hk _, rfl,
      (Keeps.loadRegs s x _).advance⟩⟩

end Sys2Proof.Machine
end

section
/-! PROOFS. The obligations about the display (`43_display.md`). What `draw` computes is a framebuffer and a
collision flag (`State.drawn`); the pixels of the one and the meaning of the other are said once, by
`spriteCovers`, and serve the first draw and the second alike. -/

namespace Sys2Proof.Machine

variable {s t u : State} {x y : VReg} {n : Nat} {row : Fin 32} {col : Fin 64}

/-! ### The pixels under a sprite (R184 to R186) -/

/-- The sprite covers a pixel exactly when the loop's rows and bits reach it. -/
theorem State.spriteCovers_iff :
    s.spriteCovers x y n row col = true ↔
      spriteOn s.mem s.i.toNat (s.reg x) (s.reg y) n row col := by
  rw [State.spriteCovers, decide_eq_true_iff]
  constructor
  · rintro ⟨r, b, hrow, hcol, hbit⟩
    exact ⟨r, r.isLt, Fin.ext hrow.symm, b, b.isLt, hbit, Fin.ext hcol.symm⟩
  · rintro ⟨r, hr, rfl, b, hb, hbit, rfl⟩
    exact ⟨⟨r, hr⟩, ⟨b, hb⟩, rfl, rfl, hbit⟩

/-- The pixels a sprite covers depend on the two coordinates, I and the sprite's bytes alone. -/
theorem State.spriteCovers_congr (hi : t.i = s.i) (hx : t.reg x = s.reg x) (hy : t.reg y = s.reg y)
    (hmem : ∀ k, k < n → t.mem.read (s.i.toNat + k) = s.mem.read (s.i.toNat + k)) :
    t.spriteCovers x y n row col = s.spriteCovers x y n row col := by
  have hbytes (r : Fin n) := hmem r r.isLt
  simp only [State.spriteCovers, hi, hx, hy, hbytes]

/-- A sprite byte is not 0 exactly when one of its eight bits is 1. -/
theorem ne_zero_iff_spriteBit (byte : Byte) : byte ≠ 0 ↔ ∃ b, b < 8 ∧ spriteBit byte b = true := by
  constructor
  · intro hne
    by_contra! hzero
    refine hne (BitVec.eq_of_getLsbD_eq fun i hi => ?_)
    have hbit := hzero (7 - i) (by omega)
    rw [spriteBit, Nat.sub_sub_self (by omega)] at hbit
    simpa using hbit
  · rintro ⟨b, -, hbit⟩ rfl
    simp [spriteBit] at hbit

/-- A sprite covers some pixel exactly when one of its bytes is not 0 (R185: no bit is clipped). -/
theorem State.exists_spriteCovers_iff :
    (∃ row col, s.spriteCovers x y n row col = true) ↔
      ∃ k, k < n ∧ s.mem.read (s.i.toNat + k) ≠ 0 := by
  simp only [State.spriteCovers_iff, ne_zero_iff_spriteBit]
  constructor
  · rintro ⟨_, _, r, hr, -, b, hb, hbit, -⟩
    exact ⟨r, hr, b, hb, hbit⟩
  · rintro ⟨r, hr, b, hb, hbit⟩
    exact ⟨_, _, r, hr, rfl, b, hb, hbit, rfl⟩

/-! ### What `draw` computes -/

/-- The framebuffer a `draw` leaves and whether it turned a lit pixel off. -/
def State.drawn (s : State) (x y : VReg) (n : Nat) : Framebuffer × Bool :=
  plotSprite s.mem s.i.toNat (s.reg x) (s.reg y) n s.fb

/-- A `draw` in range (R52, R184). -/
theorem exec_draw (h : s.i.toNat + n ≤ 0x1000) :
    exec (.draw x y n) s =
      .next ((s.setReg VF (flagByte (s.drawn x y n).2)).present (s.drawn x y n).1).advance :=
  congrArg Host.Outcome.next (State.withRange_ok h)

/-- The framebuffer and VF after a `draw` in range. -/
theorem fb_and_VF_of_exec_draw (hr : s.i.toNat + n ≤ 0x1000) (h : exec (.draw x y n) s = .next t) :
    t.fb = (s.drawn x y n).1 ∧ t.reg VF = flagByte (s.drawn x y n).2 := by
  obtain rfl := Host.Outcome.next.inj ((exec_draw hr).symm.trans h)
  exact ⟨rfl, s.reg_setReg_same VF _⟩

/-- A `draw` inverts the pixels its sprite covers and no others (R186). -/
theorem State.drawn_pixel (hn : n < 16) (row : Fin 32) (col : Fin 64) :
    (s.drawn x y n).1.pixel row col = (s.pixel row col ^^ s.spriteCovers x y n row col) := by
  rw [State.drawn, (plotSprite_spec _ _ _ _ n (by omega) _).1, State.pixel,
    ← Bool.decide_coe (s.spriteCovers x y n row col)]
  simp only [State.spriteCovers_iff]

/-- A `draw` collides exactly when it covers a lit pixel (R184). -/
theorem State.drawn_collides_iff (hn : n < 16) :
    (s.drawn x y n).2 = true ↔
      ∃ row col, s.spriteCovers x y n row col = true ∧ s.pixel row col = true := by
  simp only [State.spriteCovers_iff]
  exact (plotSprite_spec _ _ _ _ n (by omega) _).2

/-- A flag that is set exactly when `p` holds. -/
theorem flagByte_eq_ite {b : Bool} {p : Prop} [Decidable p] (h : b = true ↔ p) :
    flagByte b = if p then 1 else 0 :=
  if_congr h rfl rfl

theorem flagByte_eq_one_iff (b : Bool) : flagByte b = 1 ↔ b = true := by
  cases b <;> decide

/-- Presenting a framebuffer changes the display alone (R180). -/
theorem Keeps.present {m : MayChange} (h : Keeps m s t) (fb : Framebuffer) :
    Keeps { m with display := true } s (t.present fb) :=
  { h with display := fun hf => nomatch hf }

/-! ### The render pulse (R180, R245) -/

/-- An instruction executed without an earlier pulse pulses exactly when it is a display instruction that
does not fault. -/
theorem ExecFrame.pulse_iff {ins : Instr} (f : ExecFrame ins s u) (hup : s.fbUpdate = false)
    (hm : s.mode ≠ .faulted) :
    u.fbUpdate = true ↔
      u.mode ≠ .faulted ∧ (ins = .clearDisplay ∨ ∃ x y n, ins = .draw x y n) := by
  rcases f.display with ⟨-, hsame, hwhy⟩ | ⟨hins, hpulse, hmode⟩
  · rw [hsame, hup]
    rcases hwhy with hfault | ⟨hclear, hdraw⟩
    · simp [hfault]
    · simp [hclear, hdraw]
  · exact iff_of_true hpulse ⟨hmode ▸ hm, hins⟩

@[simp] theorem State.resumeWait_fbUpdate (s : State) (inp : CycleInput) :
    (s.resumeWait inp).fbUpdate = s.fbUpdate := by
  rcases State.resumeWait_cases s inp with ⟨k, -, hs⟩ | ⟨-, hs⟩ <;> rw [hs]
  rfl

/-! ### The obligations -/

/-- Settles O25: every cycle begins without the pulse, and only the instruction executed can give it. -/
theorem renderPulsedOncePerDisplayInstruction : Obligations.RenderPulsedOncePerDisplayInstruction := by
  intro s t hterm h
  rcases step_cases h with ⟨hstop, -⟩ | ⟨-, hquit, rfl⟩ | ⟨hwait, -, rfl⟩ | ⟨-, -, -, rfl⟩ |
    ⟨-, -, w, -, -, rfl⟩ | ⟨hm, hq, i, v, hi, he, rfl⟩
  · simp [hstop] at hterm
  · simp [hquit]
  · simp [hwait]
  · simp [State.fetchFault]
  · simp [State.unknownFault]
  · have hpulse := (exec_frame he).pulse_iff rfl (by simp [hm])
    simpa [hm, hq, hi] using hpulse

/-- Settles O55: the framebuffer and the collision flag that the sprite loop computes. -/
theorem drawXorsTheWrappedSprite : Obligations.DrawXorsTheWrappedSprite := fun x y _ s hn hr =>
  ⟨encodedAs_of_isWordOf ⟨_, (toNat_ofNat_of_lt hn).symm, ofNat_eq_wordXYN_of_lt 0xD x y hn⟩,
    ⟨_, exec_draw hr, State.drawn_pixel hn,
      (s.reg_setReg_same VF _).trans (flagByte_eq_ite (State.drawn_collides_iff hn)), rfl, rfl,
      ((Keeps.setReg s VF _).present _).advance⟩⟩

/-- Settles O56: the second draw covers the pixels of the first, so each of them is inverted twice, and the
lit ones it finds there are those that were off at first. -/
theorem secondDrawRestoresFramebuffer : Obligations.SecondDrawRestoresFramebuffer := by
  intro x y n s t t' u hn hr hfirst hfb hi hx hy hmem hsecond
  obtain ⟨ht, -⟩ := fb_and_VF_of_exec_draw hr hfirst
  obtain ⟨hu, hVF⟩ := fb_and_VF_of_exec_draw (hi ▸ hr) hsecond
  have hcover (row : Fin 32) (col : Fin 64) :
      t'.spriteCovers x y n row col = s.spriteCovers x y n row col :=
    State.spriteCovers_congr hi hx hy hmem
  have hpixel (row : Fin 32) (col : Fin 64) :
      t'.pixel row col = (s.pixel row col ^^ s.spriteCovers x y n row col) :=
    (congrArg (·.pixel row col) (hfb.trans ht)).trans (State.drawn_pixel hn row col)
  have hflag : (t'.drawn x y n).2 = true ↔
      ∃ row col, s.spriteCovers x y n row col = true ∧ s.pixel row col = false := by
    rw [State.drawn_collides_iff hn]
    refine exists_congr fun row => exists_congr fun col => ?_
    rw [hcover, hpixel]
    exact and_congr_right fun hc => by simp [hc]
  refine ⟨Framebuffer.eq_of_pixel fun row col => ?_, hVF.trans (flagByte_eq_ite hflag), fun hoff => ?_⟩
  · calc u.fb.pixel row col
        = (s.pixel row col ^^ s.spriteCovers x y n row col ^^ s.spriteCovers x y n row col) := by
          rw [hu, State.drawn_pixel hn, hcover, hpixel]
      _ = s.pixel row col := by rw [Bool.xor_assoc, Bool.xor_self, Bool.xor_false]
  · rw [hVF, flagByte_eq_one_iff, hflag, ← State.exists_spriteCovers_iff (x := x) (y := y)]
    exact exists_congr fun row => exists_congr fun col => and_iff_left_of_imp (hoff row col)

/-- Settles O54: the clear framebuffer is presented, and that changes the display alone. -/
theorem clearDisplayClearsEveryPixel : Obligations.ClearDisplayClearsEveryPixel := fun s =>
  ⟨rfl, _, rfl, Framebuffer.pixel_clear, rfl, rfl, ((Keeps.refl {} s).present _).advance⟩

end Sys2Proof.Machine
end

section
/-! PROOFS. The obligations about key input and timers (`44_timers_input.md`). What the gate does to the
timers is said once (`finishCycle_tick`, `finishCycle_noTick`), and what a step does to them follows from it
(`step_timers`): it stops the CORE and keeps them, or it gates what its instruction left (`BeforeGate`). -/

namespace Sys2Proof.Machine

variable {s t u : State} {inp : CycleInput} {k : Nibble}

/-! ### The end of a cycle and the timers (R210, R211) -/

/-- A fault skips the timer gate (R232). -/
theorem State.finishCycle_of_faulted (h : u.mode = .faulted) : u.finishCycle inp = u.endCycle :=
  if_pos h

/-- Every other cycle that reaches its end runs the timer gate (R100). -/
theorem State.finishCycle_of_not_faulted (h : u.mode ≠ .faulted) :
    u.finishCycle inp = (u.timerGate inp).endCycle :=
  if_neg h

/-- On a tick both timers fall by 1 and stop at 0. -/
theorem State.finishCycle_tick (h : u.mode ≠ .faulted) (ht : inp.tick = true) :
    (u.finishCycle inp).dt.toNat = u.dt.toNat - 1 ∧ (u.finishCycle inp).st.toNat = u.st.toNat - 1 ∧
      (u.finishCycle inp).lastDecay = inp.now := by
  simp [State.finishCycle_of_not_faulted h, ht, decay_toNat]

/-- Without a tick the end of a cycle keeps the timers, faulted or not. -/
theorem State.finishCycle_noTick (ht : inp.tick = false) :
    (u.finishCycle inp).dt = u.dt ∧ (u.finishCycle inp).st = u.st ∧
      (u.finishCycle inp).lastDecay = u.lastDecay := by
  by_cases h : u.mode = .faulted
  · simp [State.finishCycle_of_faulted h]
  · simp [State.finishCycle_of_not_faulted h, ht]

/-! ### The key wait (R204, R205) -/

theorem State.resumeWait_of_edge (h : inp.keyEdge = some k) :
    s.resumeWait inp = { (s.takeKey s.awaitX k).advance with mode := .run } := by
  simp only [State.resumeWait, h]

theorem State.resumeWait_of_no_edge (h : inp.keyEdge = none) : s.resumeWait inp = s := by
  simp only [State.resumeWait, h]

/-- A key is taken as the 8-bit value of its number (R204). -/
theorem State.takeKey_reg_toNat (s : State) (x : VReg) (k : Nibble) :
    ((s.takeKey x k).reg x).toNat = k.toNat := by
  rw [State.reg_takeKey, if_pos rfl, BitVec.toNat_setWidth_of_le (by decide)]

/-- A cycle of the key wait changes the awaited register and the mode alone. -/
theorem Keeps.resumeWait (s : State) (inp : CycleInput) :
    Keeps { regs := (· == s.awaitX), mode := true } s (s.resumeWait inp) := by
  rcases State.resumeWait_cases s inp with ⟨k, -, hs⟩ | ⟨-, hs⟩ <;> rw [hs]
  · exact { (Keeps.setReg s s.awaitX (k.setWidth 8)).advance with mode := fun h => nomatch h }
  · exact Keeps.refl _ s

@[simp] theorem State.resumeWait_awaitX (s : State) (inp : CycleInput) :
    (s.resumeWait inp).awaitX = s.awaitX := by
  rcases State.resumeWait_cases s inp with ⟨k, -, hs⟩ | ⟨-, hs⟩ <;> rw [hs]
  rfl

/-- A waiting CORE waits on or runs again; it does not stop. -/
theorem State.resumeWait_not_terminal (hm : s.mode = .awaitKey) (inp : CycleInput) :
    (s.resumeWait inp).mode.terminal = false := by
  rcases State.resumeWait_cases s inp with ⟨k, -, hs⟩ | ⟨-, hs⟩ <;> rw [hs]
  · rfl
  · rw [hm]; rfl

/-! ### What a step does to the timers -/

theorem Mode.ne_faulted_of_not_terminal {m : Mode} (h : m.terminal = false) : m ≠ .faulted := by
  rintro rfl
  cases h

/-- The instruction that a cycle without quit executes, if it executes one: none is fetched in a wait. -/
def State.executed (s : State) : Option Instr :=
  if s.mode = .run then s.nextInstr else none

theorem State.executed_of_run (h : s.mode = .run) : s.executed = s.nextInstr :=
  if_pos h

theorem State.executed_of_not_run (h : s.mode ≠ .run) : s.executed = none :=
  if_neg h

theorem State.nextInstr_of_executed {i : Instr} (h : s.executed = some i) : s.nextInstr = some i :=
  (Option.ite_none_right_eq_some.mp h).2

/-- `u` has the timers that the instruction of a cycle from `s` leaves to the gate: only the two loads
write them (R207), and none touches `last_decay`. -/
structure BeforeGate (s u : State) : Prop where
  dtLoaded : ∀ x, s.executed = some (.loadDT x) → u.dt = s.reg x
  dtKept : (∀ x, s.executed ≠ some (.loadDT x)) → u.dt = s.dt
  stLoaded : ∀ x, s.executed = some (.loadST x) → u.st = s.reg x
  stKept : (∀ x, s.executed ≠ some (.loadST x)) → u.st = s.st
  lastDecay : u.lastDecay = s.lastDecay

theorem BeforeGate.ofExec {i : Instr} (hi : s.executed = some i)
    (f : ExecFrame i s.beginCycle u) : BeforeGate s u where
  dtLoaded x h := f.delaySet x (Option.some.inj (hi.symm.trans h))
  dtKept h := by
    rcases f.delay with hdt | ⟨x, rfl, -⟩
    · exact hdt
    · exact absurd hi (h x)
  stLoaded x h := (f.soundSet x (Option.some.inj (hi.symm.trans h))).1
  stKept h := by
    rcases f.sound with ⟨hst, -⟩ | ⟨x, rfl, -⟩
    · exact hst
    · exact absurd hi (h x)
  lastDecay := f.ports.2.2

theorem BeforeGate.ofWait (hm : s.mode = .awaitKey) (inp : CycleInput) :
    BeforeGate s (s.beginCycle.resumeWait inp) :=
  have hnone : s.executed = none := State.executed_of_not_run (by simp [hm])
  have f := Keeps.resumeWait s.beginCycle inp
  { dtLoaded := by simp [hnone]
    dtKept := fun _ => f.dt rfl
    stLoaded := by simp [hnone]
    stKept := fun _ => (f.st rfl).1
    lastDecay := f.lastDecay }

/-- A step ends stopped with the timers as they were, or it gates what its instruction left. -/
theorem step_timers (h : step s = .next t) :
    (t.mode.terminal = true ∧
      (s.mode.terminal = true ∨ s.input.quit = true ∨ t.mode = .faulted) ∧
      t.dt = s.dt ∧ t.st = s.st ∧ t.lastDecay = s.lastDecay) ∨
    ∃ u, BeforeGate s u ∧ u.mode.terminal = false ∧ t = u.finishCycle s.input := by
  rcases step_cases h with ⟨hstop, rfl⟩ | ⟨-, hq, rfl⟩ | ⟨hm, -, rfl⟩ | ⟨-, -, -, rfl⟩ |
    ⟨-, -, w, -, -, rfl⟩ | ⟨hm, -, i, u, hi, he, rfl⟩
  · exact .inl ⟨hstop, .inl hstop, rfl, rfl, rfl⟩
  · exact .inl ⟨rfl, .inr (.inl hq), rfl, rfl, rfl⟩
  · exact .inr ⟨_, .ofWait hm _, State.resumeWait_not_terminal (s := s.beginCycle) hm _, rfl⟩
  · exact .inl ⟨rfl, .inr (.inr rfl), rfl, rfl, rfl⟩
  · exact .inl ⟨rfl, .inr (.inr rfl), rfl, rfl, rfl⟩
  · have f := exec_frame he
    have hgate : BeforeGate s u := .ofExec ((State.executed_of_run hm).trans hi) f
    rcases f.mode with ⟨hmode, -, -⟩ | ⟨c, n, rfl⟩ | ⟨x, -, rfl⟩
    · exact .inr ⟨u, hgate, by rw [hmode, State.beginCycle_mode, hm]; rfl, rfl⟩
    · rw [State.finishCycle_of_faulted rfl]
      exact .inl ⟨rfl, .inr (.inr rfl), rfl, rfl, rfl⟩
    · exact .inr ⟨_, hgate, rfl, rfl⟩

/-- While the host keeps its duty, a cycle in which the gate fires moves `last_decay` by at least 1/60 s,
and every other cycle leaves it or moves it on. -/
theorem lastDecay_paced_of_step (hduty : HostKeepsGate s) (h : step s = .next t) :
    (if t.mode.terminal = false ∧ s.input.tick = true then 1 else 0) * Config.timeUnitsPerSecond +
      Config.timerHz * s.lastDecay ≤ Config.timerHz * t.lastDecay := by
  rcases step_timers h with ⟨hstop, -, -, -, hlast⟩ | ⟨u, hu, hm, rfl⟩
  · simp [hstop, hlast]
  · cases ht : s.input.tick with
    | true =>
      rw [State.finishCycle_mode, if_pos ⟨hm, rfl⟩, Nat.one_mul,
        (State.finishCycle_tick (Mode.ne_faulted_of_not_terminal hm) ht).2.2]
      exact of_decide_eq_true (hduty.symm.trans ht)
    | false =>
      rw [(State.finishCycle_noTick ht).2.2, hu.lastDecay]
      simp

/-! ### The meanings of the family -/

/-- The key skips compare all 8 bits of the register (R202, R203). -/
theorem keyMatches_iff (edge : Option Nibble) (b : Byte) :
    keyMatches edge b = true ↔ ∃ k, edge = some k ∧ k.toNat = b.toNat := by
  cases edge <;> simp [keyMatches]

theorem exec_waitKey_of_edge (x : VReg) (h : s.input.keyEdge = some k) :
    exec (.waitKey x) s = .next (s.takeKey x k).advance := by
  simp only [exec, execWaitKey, h]

theorem exec_waitKey_of_no_edge (x : VReg) (h : s.input.keyEdge = none) :
    exec (.waitKey x) s = .next (s.enterWait x) := by
  simp only [exec, execWaitKey, h]

/-- Entering a wait changes the mode and its destination alone. -/
theorem Keeps.enterWait (s : State) (x : VReg) : Keeps { mode := true } s (s.enterWait x) :=
  { Keeps.refl _ s with mode := fun h => nomatch h }

theorem Keeps.setDelay (s : State) (b : Byte) : Keeps { dt := true } s { s with dt := b } :=
  { Keeps.refl _ s with dt := fun h => nomatch h }

theorem Keeps.setSound (s : State) (b : Byte) (tone : Bool) :
    Keeps { st := true } s { s with st := b, toneActive := tone } :=
  { Keeps.refl _ s with st := fun h => nomatch h }

/-! ### The obligations -/

/-- Settles O20: the two loads write the timers before the gate, and the gate does the rest. -/
theorem timersMoveOnlyByGateAndLoads : Obligations.TimersMoveOnlyByGateAndLoads := by
  intro s t hterm hquit h hnf
  rcases step_timers h with ⟨-, hwhy, -⟩ | ⟨u, hu, hm, rfl⟩
  · simp [hterm, hquit, hnf] at hwhy
  · intro ins dt st
    have hins : s.executed = ins := rfl
    clear_value ins
    subst hins
    have hdt : u.dt.toNat = dt := by
      simp only [dt]
      split
      case h_1 x hx => exact congrArg BitVec.toNat (hu.dtLoaded x hx)
      case h_2 hne => exact congrArg BitVec.toNat (hu.dtKept hne)
    have hst : u.st.toNat = st := by
      simp only [st]
      split
      case h_1 x hx => exact congrArg BitVec.toNat (hu.stLoaded x hx)
      case h_2 hne => exact congrArg BitVec.toNat (hu.stKept hne)
    rw [← hdt, ← hst]
    refine ⟨State.finishCycle_tick (Mode.ne_faulted_of_not_terminal hm), fun ht => ?_⟩
    obtain ⟨hdt', hst', hlast⟩ := State.finishCycle_noTick (u := u) ht
    exact ⟨congrArg BitVec.toNat hdt', congrArg BitVec.toNat hst', hlast.trans hu.lastDecay⟩

/-- Settles O21: the instruction keeps the tone with ST, and so does the gate. -/
theorem toneFollowsSoundTimer : Obligations.ToneFollowsSoundTimer := by
  intro s t htone h
  rcases step_cases h with ⟨-, rfl⟩ | ⟨-, -, rfl⟩ | ⟨-, -, rfl⟩ | ⟨-, -, -, rfl⟩ |
    ⟨-, -, w, -, -, rfl⟩ | ⟨-, -, i, u, -, he, rfl⟩
  · exact htone
  · exact htone
  · obtain ⟨hst, ht⟩ := (Keeps.resumeWait s.beginCycle s.input).st rfl
    exact State.finishCycle_tone (by rw [ht, hst]; exact htone) s.input
  · exact htone
  · exact htone
  · exact State.finishCycle_tone ((exec_frame he).tone htone) s.input

/-- Settles O22: the host's duty gives no tick, and without one the gate leaves what the instruction left. -/
theorem noDecayBeforePeriod : Obligations.NoDecayBeforePeriod := by
  intro s t hduty hearly h
  have ht : s.input.tick = false := hduty.trans (decide_eq_false (Nat.not_le.mpr hearly))
  rcases step_timers h with ⟨-, -, hdt, hst, hlast⟩ | ⟨u, hu, -, rfl⟩
  · exact ⟨hlast, fun _ => hdt, fun _ => hst⟩
  · obtain ⟨hdt, hst, hlast⟩ := State.finishCycle_noTick (u := u) ht
    exact ⟨hlast.trans hu.lastDecay,
      fun hne => hdt.trans (hu.dtKept fun x hx => hne x (State.nextInstr_of_executed hx)),
      fun hne => hst.trans (hu.stKept fun x hx => hne x (State.nextInstr_of_executed hx))⟩

/-- Settles O23: by induction on the run, each cycle paced by the host's duty. -/
theorem decaysPacedBySixtyHertz : Obligations.DecaysPacedBySixtyHertz := by
  intro s t n hrun
  induction hrun with
  | start => simp
  | next run gate one ih =>
    rw [Nat.add_mul, Nat.add_right_comm, Nat.add_comm]
    exact (Nat.add_le_add_left ih _).trans (lastDecay_paced_of_step gate one)

/-- Settles O58: the wait takes an edge or goes on, and its cycle ends with the gate. -/
theorem waitingCycleTakesEdge : Obligations.WaitingCycleTakesEdge := by
  refine ⟨fun s hm hq => ⟨_, step_quit (by rw [hm]; rfl) hq, rfl, rfl, fun _ => rfl, rfl, rfl⟩,
    fun s hm hq => ⟨_, step_await hm hq, ?_⟩⟩
  have f := Keeps.resumeWait s.beginCycle s.input
  have hnf := Mode.ne_faulted_of_not_terminal
    (State.resumeWait_not_terminal (s := s.beginCycle) hm s.input)
  refine ⟨fun k hk => ?edge, fun hk => ?noEdge, fun ht => ?tick, fun ht => ?noTick, by simp,
    by simpa using f.index rfl, by simpa using f.sp rfl, fun k => by simpa using f.slots k rfl,
    fun row col => ?pixels, fun a => by simpa using f.mem a rfl, by simpa using f.faultRecord⟩
  case edge =>
    have hreg (r : VReg) := State.finishCycle_reg (s.beginCycle.resumeWait s.input) s.input r
    have hs := State.resumeWait_of_edge (s := s.beginCycle) hk
    refine ⟨by simp [hs], by simp [hs], ?_, fun r hr => (hreg r).trans (f.regs r (beq_false_of_ne hr))⟩
    rw [hreg, hs]
    exact s.takeKey_reg_toNat s.awaitX k
  case noEdge => simp [State.resumeWait_of_no_edge hk, hm]
  case tick =>
    obtain ⟨hdt, hst, -⟩ := State.finishCycle_tick hnf ht
    rw [hdt, hst, f.dt rfl, (f.st rfl).1, State.beginCycle_dt, State.beginCycle_st]
    exact ⟨rfl, rfl⟩
  case noTick =>
    obtain ⟨hdt, hst, -⟩ := State.finishCycle_noTick (u := s.beginCycle.resumeWait s.input) ht
    exact ⟨hdt.trans (f.dt rfl), hst.trans (f.st rfl).1⟩
  case pixels =>
    exact (State.pixel_eq_of_fb (State.finishCycle_fb _ _) row col).trans ((f.display rfl).1 row col)

/-- Settles O15: quit ends the cycle before anything else happens. -/
theorem quitOnlyHalts : Obligations.QuitOnlyHalts := by
  intro s hm hq
  refine step_quit ?_ hq
  rcases hm with hm | hm <;> rw [hm] <;> rfl

/-- Settles O40: both skips change PC alone, on the comparison of the edge or its negation. -/
theorem keySkipsTestTheEdge : Obligations.KeySkipsTestTheEdge := fun x s =>
  ⟨encodedAs_of_isWordOf (ofNat_digits_eq_wordXNN 0xE x 0x9E),
    encodedAs_of_isWordOf (ofNat_digits_eq_wordXNN 0xE x 0xA1),
    ⟨_, rfl, State.skipIf_pc_of_iff (keyMatches_iff _ _), (Keeps.refl _ s).skipIf _⟩,
    ⟨_, rfl, State.skipIf_not_pc_of_iff (keyMatches_iff _ _), (Keeps.refl _ s).skipIf _⟩⟩

/-- Settles O57: with an edge a register write, without one the entry of the wait. -/
theorem keyWaitTakesEdgeOrWaits : Obligations.KeyWaitTakesEdgeOrWaits := fun x s =>
  ⟨encodedAs_of_isWordOf (ofNat_digits_eq_wordXNN 0xF x 0x0A),
    fun k hk => ⟨_, exec_waitKey_of_edge x hk, s.takeKey_reg_toNat x k, rfl,
      (Keeps.setReg s x _).advance⟩,
    fun hk => ⟨_, exec_waitKey_of_no_edge x hk, rfl, rfl, rfl, Keeps.enterWait s x⟩⟩

/-- Settles O59: each load writes its timer, and the second the tone with it. -/
theorem timerLoads : Obligations.TimerLoads := fun x s =>
  ⟨encodedAs_of_isWordOf (ofNat_digits_eq_wordXNN 0xF x 0x15),
    encodedAs_of_isWordOf (ofNat_digits_eq_wordXNN 0xF x 0x18),
    ⟨_, rfl, rfl, rfl, (Keeps.setDelay s _).advance⟩,
    ⟨_, rfl, rfl, bne_iff_ne.trans BitVec.toNat_inj.symm.not, rfl, (Keeps.setSound s _ _).advance⟩⟩

end Sys2Proof.Machine
end

section
/-! PROOFS. The obligations about exceptions and the inputs of a cycle (`60_exceptions.md`). Which fault is
due (R231, R233) is said through the instruction's own check (`State.ownFault`), and `exec` takes that fault
or none; so a cycle in mode RUN ends in the fault that is due (`step_of_faultDue`), and without one it does
not fault (`not_faulted_of_step`). The key edge and the tick are followed through a cycle by
`State.withInput`. -/

namespace Sys2Proof.Machine

variable {s t u : State}

/-! ### What stands at PC -/

/-- Nothing can be fetched at PC, or the word there is unknown, or it is an instruction (R101, R74). -/
theorem State.fetch_decode_cases (s : State) :
    s.fetch = none ∨ (∃ w, s.fetch = some w ∧ decodeWord w = none) ∨ ∃ i, s.nextInstr = some i := by
  cases hf : s.fetch with
  | none => exact .inl rfl
  | some w =>
    cases hd : decodeWord w with
    | none => exact .inr (.inl ⟨w, rfl, hd⟩)
    | some i => exact .inr (.inr ⟨i, State.nextInstr_eq_some.mpr ⟨w, hf, hd⟩⟩)

theorem Mode.run_or_awaitKey_of_not_terminal {m : Mode} (h : m.terminal = false) :
    m = .run ∨ m = .awaitKey := by
  cases m with
  | run => exact .inl rfl
  | awaitKey => exact .inr rfl
  | halted => cases h
  | faulted => cases h

/-- In mode RUN without quit a step answers a next state, whatever stands at PC. -/
theorem step_answers_next_of_run (hm : s.mode = .run) (hq : s.input.quit = false) :
    ∃ t, step s = .next t := by
  rcases s.fetch_decode_cases with hf | ⟨w, hf, hd⟩ | ⟨i, hi⟩
  · exact ⟨_, step_fetchFault hm hq hf⟩
  · exact ⟨_, step_unknown hm hq hf hd⟩
  · obtain ⟨u, hu⟩ := exec_answers_next i s.beginCycle
    exact ⟨_, step_exec hm hq hi hu⟩

/-- A step answers a next state in a terminal mode, on quit, in the key wait and in mode RUN. -/
theorem step_answers_next (s : State) : ∃ t, step s = .next t := by
  cases hterm : s.mode.terminal with
  | true => exact ⟨s, step_terminal hterm⟩
  | false =>
    cases hq : s.input.quit with
    | true => exact ⟨_, step_quit hterm hq⟩
    | false =>
      rcases Mode.run_or_awaitKey_of_not_terminal hterm with hm | hm
      · exact step_answers_next_of_run hm hq
      · exact ⟨_, step_await hm hq⟩

/-! ### The instruction's own check (R231, codes 3 to 6) -/

/-- The record of a fault with the word at PC. -/
def State.recordAt (s : State) (code : FaultCode) (info : Option PcVal) : FaultRecord :=
  ⟨code, s.pc, some s.currentWord, info⟩

/-- MEM_OUT_OF_RANGE where `count` bytes from I pass 0xFFF (R52). -/
def State.rangeFault (s : State) (count : Nat) : Option FaultRecord :=
  if s.i.toNat + count > 0x1000 then some (s.recordAt .memOutOfRange (some 0x1000)) else none

/-- The record of the fault that the instruction's own check raises, if it fails. -/
def State.ownFault (s : State) : Instr → Option FaultRecord
  | .ret => if s.sp = 0 then some (s.recordAt .stackUnderflow none) else none
  | .call _ => if s.sp = 15 then some (s.recordAt .stackOverflow none) else none
  | .addI x =>
    if indexSum s.i (s.reg x) > 0xFFF then
      some (s.recordAt .indexOutOfRange (some (BitVec.ofNat 13 (indexSum s.i (s.reg x)))))
    else none
  | .draw _ _ n => s.rangeFault n
  | .storeBcd _ => s.rangeFault 3
  | .storeRegs x | .readRegs x => s.rangeFault (x.val + 1)
  | _ => none

/-- The state with the fault of the record taken and nothing else changed (R232). -/
def State.takeFault (s : State) (r : FaultRecord) : State :=
  { s with mode := .faulted, faultRecord := some r }

variable {i : Instr} {r : FaultRecord}

theorem State.rangeFault_eq_some {count : Nat} :
    s.rangeFault count = some r ↔
      s.i.toNat + count > 0x1000 ∧ s.recordAt .memOutOfRange (some 0x1000) = r := by
  simp only [State.rangeFault, Option.ite_none_right_eq_some, Option.some.injEq]

theorem State.rangeFault_eq_none {count : Nat} :
    s.rangeFault count = none ↔ s.i.toNat + count ≤ 0x1000 := by
  simp [State.rangeFault]

/-- An instruction that touches `count` bytes from I takes the fault of its range. -/
theorem exec_of_rangeFault {ok : State} {count : Nat}
    (he : exec i s = .next (s.withRange s.i.toNat count ok)) (h : s.rangeFault count = some r) :
    exec i s = .next (s.takeFault r) := by
  obtain ⟨hr, rfl⟩ := State.rangeFault_eq_some.mp h
  exact exec_fault_of_withRange he hr

/-- An instruction whose own check fails takes that fault. -/
theorem exec_of_ownFault (h : s.ownFault i = some r) : exec i s = .next (s.takeFault r) := by
  cases i with
  | ret =>
    obtain ⟨hsp, he⟩ := Option.ite_none_right_eq_some.mp h
    cases he
    exact exec_ret_fault hsp
  | call nnn =>
    obtain ⟨hsp, he⟩ := Option.ite_none_right_eq_some.mp h
    cases he
    exact exec_call_fault nnn hsp
  | addI x =>
    obtain ⟨hsum, he⟩ := Option.ite_none_right_eq_some.mp h
    cases he
    exact exec_addI_fault hsum
  | draw x y n => exact exec_of_rangeFault rfl h
  | storeBcd x => exact exec_of_rangeFault rfl h
  | storeRegs x => exact exec_of_rangeFault rfl h
  | readRegs x => exact exec_of_rangeFault rfl h
  | _ => cases h

/-- An instruction whose range holds goes on as it does after the check. -/
theorem eq_of_rangeFault_none {ok : State} {count : Nat} (hu : exec i s = .next u)
    (he : exec i s = .next (s.withRange s.i.toNat count ok)) (h : s.rangeFault count = none) :
    u = ok := by
  rw [State.withRange_ok (State.rangeFault_eq_none.mp h)] at he
  exact Host.Outcome.next.inj (hu.symm.trans he)

/-- An instruction whose own check holds keeps the mode or enters the key wait. -/
theorem mode_of_ownFault_none (h : s.ownFault i = none) (hu : exec i s = .next u) :
    u.mode = s.mode ∨ u.mode = .awaitKey := by
  cases i with
  | ret =>
    cases (exec_ret fun hsp => nomatch (if_pos hsp).symm.trans h).symm.trans hu
    exact .inl rfl
  | call nnn =>
    cases (exec_call nnn fun hsp => nomatch (if_pos hsp).symm.trans h).symm.trans hu
    exact .inl rfl
  | addI x =>
    cases (exec_addI (not_lt.mp fun hsum => nomatch (if_pos hsum).symm.trans h)).symm.trans hu
    exact .inl rfl
  | draw x y n =>
    cases eq_of_rangeFault_none hu rfl h
    exact .inl rfl
  | storeBcd x =>
    cases eq_of_rangeFault_none hu rfl h
    exact .inl rfl
  | storeRegs x =>
    cases eq_of_rangeFault_none hu rfl h
    exact .inl rfl
  | readRegs x =>
    cases eq_of_rangeFault_none hu rfl h
    exact .inl rfl
  | waitKey x =>
    cases hk : s.input.keyEdge with
    | none =>
      cases (exec_waitKey_of_no_edge x hk).symm.trans hu
      exact .inr rfl
    | some k =>
      cases (exec_waitKey_of_edge x hk).symm.trans hu
      exact .inl rfl
  | _ =>
    cases hu
    exact .inl rfl

/-! ### The fault that is due (R231, R233) -/

/-- The record is as R231 and R232 ask of a fault in the state: PC, the fetched word (absent for code 1),
and an address or value for codes 1, 5 and 6. -/
def State.RecordFits (s : State) (r : FaultRecord) : Prop :=
  r.pc = s.pc ∧ r.word = s.fetch ∧ (r.word = none ↔ r.code.number = 1) ∧
    (r.info.isSome = true ↔ r.code.number = 1 ∨ r.code.number = 5 ∨ r.code.number = 6)

/-- A record with the fetched word fits when its code is not 1 and its information is that of the code. -/
theorem State.recordFits_recordAt {w : Word} {code : FaultCode} {info : Option PcVal}
    (hf : s.fetch = some w) (hcode : code.number ≠ 1)
    (hinfo : info.isSome = true ↔ code.number = 5 ∨ code.number = 6) :
    s.RecordFits (s.recordAt code info) := by
  obtain ⟨-, rfl⟩ := State.fetch_eq_some.mp hf
  exact ⟨rfl, hf.symm, iff_of_false nofun hcode, hinfo.trans (or_iff_right hcode).symm⟩

/-- An instruction's own fault has a fitting record. -/
theorem State.recordFits_of_ownFault {w : Word} (hf : s.fetch = some w) (h : s.ownFault i = some r) :
    s.RecordFits r := by
  have hrange {count : Nat} (h : s.rangeFault count = some r) : s.RecordFits r := by
    obtain ⟨-, rfl⟩ := State.rangeFault_eq_some.mp h
    exact State.recordFits_recordAt hf (by decide) (by decide)
  cases i with
  | ret =>
    cases (Option.ite_none_right_eq_some.mp h).2
    exact State.recordFits_recordAt hf (by decide) (by decide)
  | call nnn =>
    cases (Option.ite_none_right_eq_some.mp h).2
    exact State.recordFits_recordAt hf (by decide) (by decide)
  | addI x =>
    cases (Option.ite_none_right_eq_some.mp h).2
    exact State.recordFits_recordAt hf (by decide) (iff_of_true rfl (.inr rfl))
  | draw x y n => exact hrange h
  | storeBcd x => exact hrange h
  | storeRegs x => exact hrange h
  | readRegs x => exact hrange h
  | _ => cases h

theorem State.faultDue_of_no_fetch (h : s.fetch = none) :
    s.faultDue = some ⟨.fetchOutOfRange, s.pc, none, some (rangeFaultAddr s.pc.toNat)⟩ := by
  have hpc := State.fetch_eq_none.mp h
  exact if_pos (by omega)

theorem State.faultDue_of_unknown {w : Word} (hf : s.fetch = some w) (hd : decodeWord w = none) :
    s.faultDue = some (s.recordAt .unknownInstruction none) := by
  obtain ⟨hpc, rfl⟩ := State.fetch_eq_some.mp hf
  rw [State.currentWord, Memory.wordAt] at hd
  rw [State.faultDue, if_neg (by omega)]
  dsimp only
  rw [hd]
  rfl

/-- Where an instruction stands at PC, its own check decides; a draw of no rows checks nothing (R233). -/
theorem State.faultDue_of_nextInstr (hi : s.nextInstr = some i) : s.faultDue = s.ownFault i := by
  obtain ⟨w, hf, hd⟩ := State.nextInstr_eq_some.mp hi
  obtain ⟨hpc, rfl⟩ := State.fetch_eq_some.mp hf
  rw [State.currentWord, Memory.wordAt] at hd
  rw [State.faultDue, if_neg (by omega)]
  dsimp only
  rw [hd]
  cases i with
  | draw x y n =>
    rcases n.eq_zero_or_pos with rfl | hn
    · exact (State.rangeFault_eq_none.mpr s.i.isLt.le).symm
    · exact if_pos hn
  | _ => rfl

/-- The record of the fault that is due fits. -/
theorem State.recordFits_of_faultDue (h : s.faultDue = some r) : s.RecordFits r := by
  rcases s.fetch_decode_cases with hf | ⟨w, hf, hd⟩ | ⟨i, hi⟩
  · cases (State.faultDue_of_no_fetch hf).symm.trans h
    exact ⟨rfl, hf.symm, iff_of_true rfl rfl, iff_of_true rfl (.inl rfl)⟩
  · cases (State.faultDue_of_unknown hf hd).symm.trans h
    exact State.recordFits_recordAt hf (by decide) (by decide)
  · obtain ⟨w, hf, -⟩ := State.nextInstr_eq_some.mp hi
    exact State.recordFits_of_ownFault hf ((State.faultDue_of_nextInstr hi).symm.trans h)

/-- A cycle in mode RUN ends in the fault that is due and changes nothing else (R232). -/
theorem step_of_faultDue (hm : s.mode = .run) (hq : s.input.quit = false)
    (h : s.faultDue = some r) : step s = .next (s.afterFault r) := by
  rcases s.fetch_decode_cases with hf | ⟨w, hf, hd⟩ | ⟨i, hi⟩
  · cases (State.faultDue_of_no_fetch hf).symm.trans h
    exact step_fetchFault hm hq hf
  · cases (State.faultDue_of_unknown hf hd).symm.trans h
    obtain ⟨-, rfl⟩ := State.fetch_eq_some.mp hf
    exact step_unknown hm hq hf hd
  · have hown : s.ownFault i = some r := (State.faultDue_of_nextInstr hi).symm.trans h
    exact step_exec hm hq hi (exec_of_ownFault (s := s.beginCycle) hown)

/-- A cycle in mode RUN in which no fault is due does not fault. -/
theorem not_faulted_of_step (hm : s.mode = .run) (hdue : s.faultDue = none) (h : step s = .next t) :
    t.mode ≠ .faulted := by
  rcases step_cases h with ⟨-, rfl⟩ | ⟨-, -, rfl⟩ | ⟨hwait, -, -⟩ | ⟨-, -, hf, -⟩ |
    ⟨-, -, w, hf, hd, -⟩ | ⟨-, -, i, u, hi, he, rfl⟩
  · simp [hm]
  · nofun
  · cases hm.symm.trans hwait
  · cases (State.faultDue_of_no_fetch hf).symm.trans hdue
  · cases (State.faultDue_of_unknown hf hd).symm.trans hdue
  · have hown : s.ownFault i = none := (State.faultDue_of_nextInstr hi).symm.trans hdue
    rw [State.finishCycle_mode]
    rcases mode_of_ownFault_none (s := s.beginCycle) hown he with hu | hu <;> simp [hu, hm]

/-- Only a cycle in mode RUN without quit enters FAULTED. -/
theorem run_of_step_faulted (h : step s = .next t) (hs : s.mode ≠ .faulted) (ht : t.mode = .faulted) :
    s.mode = .run ∧ s.input.quit = false := by
  rcases step_cases h with ⟨-, rfl⟩ | ⟨-, -, rfl⟩ | ⟨hm, -, rfl⟩ | ⟨hm, hq, -⟩ | ⟨hm, hq, -⟩ |
    ⟨hm, hq, -⟩
  · exact absurd ht hs
  · cases ht
  · rw [State.finishCycle_mode] at ht
    exact absurd ht (Mode.ne_faulted_of_not_terminal (State.resumeWait_not_terminal (s := s.beginCycle) hm _))
  · exact ⟨hm, hq⟩
  · exact ⟨hm, hq⟩
  · exact ⟨hm, hq⟩

/-! ### A tick in a cycle (R211, R236) -/

theorem State.withInput_eq_of_inputs {inp : CycleInput} {rest : List CycleInput}
    (h : s.inputs = inp :: rest) (inp' : CycleInput) :
    s.withInput inp' = { s with inputs := inp' :: rest } := by
  rw [State.withInput, h, List.tail_cons]

theorem State.input_eq_of_inputs {inp : CycleInput} {rest : List CycleInput}
    (h : s.inputs = inp :: rest) : s.input = inp := by
  simp only [State.input, h]

/-- The same state but for the timers, the tone and the time of the last decay. -/
def State.withTimersOf (t u : State) : State :=
  { t with dt := u.dt, st := u.st, toneActive := u.toneActive, lastDecay := u.lastDecay }

/-- The inputs of the end of a cycle reach only what the timer gate writes. -/
theorem State.finishCycle_eq_withTimersOf (u : State) (inp inp' : CycleInput) :
    u.finishCycle inp' = (u.finishCycle inp).withTimersOf (u.finishCycle inp') := by
  unfold State.finishCycle
  split <;> rfl

/-- A cycle under an input that differs in tick and clock reading alone quits all the same, or it differs
from the end of the cycle on. -/
theorem step_withInput_tick {inp : CycleInput} (hterm : s.mode.terminal = false)
    (hquit : inp.quit = s.input.quit) (hkey : inp.keyEdge = s.input.keyEdge)
    (hrand : inp.rand = s.input.rand) :
    step (s.withInput inp) = step s ∨ ∃ u : State,
      step s = .next (u.finishCycle s.input) ∧ step (s.withInput inp) = .next (u.finishCycle inp) := by
  cases hq : s.input.quit with
  | true =>
    rw [step_quit hterm hq, step_quit (s := s.withInput inp) hterm (hquit.trans hq)]
    exact .inl rfl
  | false =>
    have hq' : (s.withInput inp).input.quit = false := hquit.trans hq
    right
    rcases Mode.run_or_awaitKey_of_not_terminal hterm with hm | hm
    · rcases s.fetch_decode_cases with hf | ⟨w, hf, hd⟩ | ⟨i, hi⟩
      · exact ⟨s.beginCycle.fetchFault, step_fetchFault hm hq hf,
          step_fetchFault (s := s.withInput inp) hm hq' hf⟩
      · exact ⟨s.beginCycle.unknownFault w, step_unknown hm hq hf hd,
          step_unknown (s := s.withInput inp) hm hq' hf hd⟩
      · obtain ⟨u, hu⟩ := exec_answers_next i s.beginCycle
        exact ⟨u, step_exec hm hq hi hu, step_exec (s := s.withInput inp) (u := u.withInput inp) hm hq' hi
          (exec_withInput (s := s.beginCycle) ⟨fun _ => hkey, fun _ => hrand⟩ hu)⟩
    · refine ⟨_, step_await hm hq, (step_await (s := s.withInput inp) hm hq').trans ?_⟩
      change Host.Outcome.next (((s.beginCycle.withInput inp).resumeWait inp).finishCycle inp) = _
      rw [State.resumeWait_withInput _ hkey, State.finishCycle_withInput]

/-! ### The obligations -/

/-- Settles O18: the fault entered is the one due, and its record holds what R231 lists. -/
theorem faultsArePrecise : Obligations.FaultsArePrecise := by
  intro s t h hs ht
  obtain ⟨hm, hq⟩ := run_of_step_faulted h hs ht
  cases hdue : s.faultDue with
  | none => exact absurd ht (not_faulted_of_step hm hdue h)
  | some r =>
    exact ⟨r, Host.Outcome.next.inj (h.symm.trans (step_of_faultDue hm hq hdue)),
      State.recordFits_of_faultDue hdue⟩

/-- Settles O19: a fault that is due is taken with its record, and without one the cycle does not fault. -/
theorem faultRaisedExactlyWhenDue : Obligations.FaultRaisedExactlyWhenDue := by
  intro s t hm hq h
  cases hdue : s.faultDue with
  | none => exact ⟨iff_of_false (not_faulted_of_step hm hdue h) nofun, nofun⟩
  | some r =>
    cases h.symm.trans (step_of_faultDue hm hq hdue)
    exact ⟨iff_of_true rfl rfl, fun r' hr => hr⟩

/-- Settles O30: outside the key wait the edge is read by the three key instructions alone. -/
theorem keyEdgeReachesOnlyKeyInstructions : Obligations.KeyEdgeReachesOnlyKeyInstructions := by
  intro s inp rest edge hs hm hi
  rw [← State.withInput_eq_of_inputs hs]
  cases State.input_eq_of_inputs hs
  exact step_withInput (by rw [hm]; rfl) rfl rfl rfl (fun hw => nomatch hm.symm.trans hw) fun i h =>
    ⟨fun hk => absurd hk (Bool.eq_false_iff.mp (hi i h)), fun _ => rfl⟩

/-- Settles O31: tick and clock reading are used at the end of the cycle alone. -/
theorem tickReachesOnlyTimers : Obligations.TickReachesOnlyTimers := by
  intro s t u inp rest tick now hterm hs ht hu
  rw [← State.withInput_eq_of_inputs hs] at hu
  cases State.input_eq_of_inputs hs
  rcases step_withInput_tick (inp := { s.input with tick := tick, now := now }) hterm rfl rfl rfl with
    heq | ⟨v, hv, hv'⟩
  · cases (hu.symm.trans heq).trans ht
    rfl
  · cases hv.symm.trans ht
    cases hv'.symm.trans hu
    exact v.finishCycle_eq_withTimersOf _ _

/-- Settles O13: every way a step can go ends in a next state. -/
theorem stepAnswersInEveryState : Obligations.StepAnswersInEveryState :=
  step_answers_next

end Sys2Proof.Machine
end

section
/-! PROOFS. The obligations about reset, the terminal modes and code that writes itself
(`70_reset_and_hazards.md`). What a boot's memory reads as is said once for every address
(`bootMemory_read`): the program where it was loaded, the font and its zeros elsewhere. -/

namespace Sys2Proof.Machine

variable {s : State}

/-! ### The memory of a boot -/

/-- With the font alone loaded, an address reads as its glyph byte, or as 0 from 0x050 on (R56). -/
theorem Memory.read_loadedFont (glyphs : Vector Byte 80) (a : Nat) :
    (Memory.writeBytes [] 0 glyphs.toList).read a = glyphs.toList.getD a 0 := by
  have hlen : glyphs.toList.length = 80 := glyphs.length_toList
  rw [Memory.read_writeBytes (m := []) Memory.reset_wf 0 _ (by rw [hlen]; decide)]
  split
  · rfl
  · exact (Memory.unlisted_eq_zero (by omega)).trans (List.getD_eq_default _ _ (by omega)).symm

/-- A program that fits lies over the font's memory from 0x200 (R261). -/
theorem bootMemory_read {prog : List Byte} (h : prog.length ≤ 3584) (glyphs : Vector Byte 80) (a : Nat) :
    (bootMemory glyphs prog).read a =
      if 0x200 ≤ a ∧ a < 0x200 + prog.length then prog.getD (a - 0x200) 0
      else glyphs.toList.getD a 0 := by
  rw [bootMemory, Memory.read_writeBytes (Memory.writeBytes_wf (m := []) Memory.reset_wf _ _) _ _
    (Nat.add_le_add_left h 0x200), Memory.read_loadedFont]

/-- Behind the font and outside the program, memory reads as 0 (R56, R261). -/
theorem bootMemory_read_eq_zero {prog : List Byte} (h : prog.length ≤ 3584) (glyphs : Vector Byte 80)
    {a : Nat} (hfont : 0x50 ≤ a) (hprog : a < 0x200 ∨ 0x200 + prog.length ≤ a) :
    (bootMemory glyphs prog).read a = 0 := by
  rw [bootMemory_read h, if_neg (by omega)]
  exact List.getD_eq_default _ _ (by rw [glyphs.length_toList]; exact hfont)

/-! ### The outcome of a boot -/

/-- LOAD_FAILED: the loader failed, or the program is too long (R261). -/
theorem State.boot_eq_loadFailed_iff (loadOk : Bool) (glyphs : Vector Byte 80) (prog : List Byte) :
    State.boot loadOk glyphs prog = .loadFailed ↔ loadOk = false ∨ 3584 < prog.length := by
  cases loadOk <;> simp [State.boot]

/-- Else the machine is the reset state with the boot's memory (R261, R40). -/
theorem State.boot_eq_ready_iff (loadOk : Bool) (glyphs : Vector Byte 80) (prog : List Byte) :
    State.boot loadOk glyphs prog = .ready s ↔
      (loadOk = true ∧ prog.length ≤ 3584) ∧ { State.reset with mem := bootMemory glyphs prog } = s := by
  simp [State.boot, ite_eq_iff]

/-! ### The obligations -/

/-- Settles O8: the outcome of a boot by its two conditions, and the memory of one that succeeds by where
an address lies. -/
theorem bootLoadsFontAndProgram : Obligations.BootLoadsFontAndProgram := by
  intro loadOk glyphs prog
  refine ⟨State.boot_eq_loadFailed_iff loadOk glyphs prog, fun s hs => ?_⟩
  obtain ⟨⟨-, hlen⟩, rfl⟩ := (State.boot_eq_ready_iff loadOk glyphs prog).mp hs
  refine ⟨fun a ha => ?font, fun a hlo hhi => bootMemory_read_eq_zero hlen glyphs hlo (.inl hhi),
    fun k hk => ?program, fun a ha => bootMemory_read_eq_zero hlen glyphs (by omega) (.inr ha), rfl⟩
  case font =>
    have hglyph : glyphs.toList.getD a 0 = glyphs[a] := by simp [ha]
    exact (bootMemory_read hlen glyphs a).trans ((if_neg (by omega)).trans hglyph)
  case program =>
    refine (bootMemory_read hlen glyphs (0x200 + k)).trans ((if_pos (by omega)).trans ?_)
    rw [Nat.add_sub_cancel_left]

/-- Settles O35: the fetch is in range, and its two bytes are the stored Vk and Vk+1. -/
theorem storeIsSeenByNextFetch : Obligations.StoreIsSeenByNextFetch := by
  intro x s t hwf hr hstore k k' hk' hx hpc
  have hrange : s.i.toNat + (x.val + 1) ≤ 0x1000 := by omega
  have hx' : k'.val ≤ x.val := hx
  have hk : k ≤ x := Fin.le_def.mpr (by omega)
  obtain rfl := Host.Outcome.next.inj ((exec_storeRegs hrange).symm.trans hstore)
  rw [State.fetch_eq_currentWord (by omega), State.currentWord, Memory.wordAt, hpc, Nat.add_assoc, ← hk']
  exact congrArg some (congrArg₂ wordOfBytes (Memory.read_stored_reg hwf hrange hk)
    (Memory.read_stored_reg hwf hrange hx))

/-- Settles O14: both are the terminal modes. -/
theorem terminalModesChangeNothing : Obligations.TerminalModesChangeNothing := by
  rintro s (hm | hm) <;> exact step_terminal (by rw [hm]; rfl)

end Sys2Proof.Machine
end
